-- ==== Sys2Proof/Word.lean ====
section
/-! DEFINITION. The two machine words of rust-8 CORE: bytes (registers, timers, memory cells) and 16-bit words
(instruction words, `I`, `pc`, stack entries). Every quantity is unsigned (00_scope.md section 6.1). -/

namespace Sys2Proof

/-- 8 bits: a general register, a timer, a memory cell. -/
abbrev Byte := BitVec 8

/-- 16 bits: an instruction word, `I`, `pc`, a stack entry. -/
abbrev Word := BitVec 16

end Sys2Proof
end

