-- ==== Sys2Proof/Syntax.lean ====
section
/-! DEFINITION. The 33 instructions of spec/opcode_table.json, one constructor per row in the table's order.
An unknown opcode (30_encoding.md R100) is the absence of a row and so is no constructor. -/

namespace Sys2Proof

/-- A register number, `X` or `Y` of 30_encoding.md R91. Four bits, so it is never out of range (10_state.md R20). -/
abbrev Reg := Fin 16

/-- `nnn` is the address immediate already zero-extended to 16 bits (R93), `nn` the byte immediate, `n` the count
operand. WellFormed.lean says which `nnn` and `n` an encoding can hold. -/
inductive Instr where
  | cls                               -- 00E0
  | ret                               -- 00EE
  | jp (nnn : Word)                   -- 1NNN
  | call (nnn : Word)                 -- 2NNN
  | seImm (x : Reg) (nn : Byte)       -- 3xNN
  | sneImm (x : Reg) (nn : Byte)      -- 4xNN
  | seReg (x y : Reg)                 -- 5xy0
  | ldImm (x : Reg) (nn : Byte)       -- 6xNN
  | addImm (x : Reg) (nn : Byte)      -- 7xNN
  | ldReg (x y : Reg)                 -- 8xy0
  | or (x y : Reg)                    -- 8xy1
  | and (x y : Reg)                   -- 8xy2
  | xor (x y : Reg)                   -- 8xy3
  | addReg (x y : Reg)                -- 8xy4
  | sub (x y : Reg)                   -- 8xy5
  | shr (x y : Reg)                   -- 8xy6
  | subn (x y : Reg)                  -- 8xy7
  | shl (x y : Reg)                   -- 8xyE
  | sneReg (x y : Reg)                -- 9xy0
  | ldI (nnn : Word)                  -- ANNN
  | jpV0 (nnn : Word)                 -- BNNN
  | rnd (x : Reg) (nn : Byte)         -- CxNN
  | drw (x y : Reg) (n : Nat)         -- DXYN
  | skp (x : Reg)                     -- Ex9E
  | sknp (x : Reg)                    -- ExA1
  | ldVxDt (x : Reg)                  -- Fx07
  | ldVxKey (x : Reg)                 -- Fx0A
  | ldDtVx (x : Reg)                  -- Fx15
  | ldStVx (x : Reg)                  -- Fx18
  | addI (x : Reg)                    -- Fx1E
  | ldBcd (x : Reg)                   -- Fx33
  | storeRegs (x : Reg)               -- Fx55
  | loadRegs (x : Reg)                -- Fx65
deriving DecidableEq, Repr

end Sys2Proof
end

