-- ==== Sys2Proof/WellFormed.lean ====
section
/-! DEFINITION. Which instructions an encoding can hold (30_encoding.md R91, R93): an address immediate has 12 bits,
a sprite height 4 bits. Register numbers and byte immediates are bounded by their types. -/

namespace Sys2Proof

/-- `NNN` is 0..4095 (R93). -/
def fitsAddress (nnn : Word) : Bool := nnn.toNat < 4096

/-- `N` is 0..15 (R93). -/
def fitsNibble (n : Nat) : Bool := n < 16

/-- Every operand fits its field. -/
def wellFormed : Instr → Bool
  | .cls => true
  | .ret => true
  | .jp nnn => fitsAddress nnn
  | .call nnn => fitsAddress nnn
  | .seImm _ _ => true
  | .sneImm _ _ => true
  | .seReg _ _ => true
  | .ldImm _ _ => true
  | .addImm _ _ => true
  | .ldReg _ _ => true
  | .or _ _ => true
  | .and _ _ => true
  | .xor _ _ => true
  | .addReg _ _ => true
  | .sub _ _ => true
  | .shr _ _ => true
  | .subn _ _ => true
  | .shl _ _ => true
  | .sneReg _ _ => true
  | .ldI nnn => fitsAddress nnn
  | .jpV0 nnn => fitsAddress nnn
  | .rnd _ _ => true
  | .drw _ _ n => fitsNibble n
  | .skp _ => true
  | .sknp _ => true
  | .ldVxDt _ => true
  | .ldVxKey _ => true
  | .ldDtVx _ => true
  | .ldStVx _ => true
  | .addI _ => true
  | .ldBcd _ => true
  | .storeRegs _ => true
  | .loadRegs _ => true

end Sys2Proof
end

