-- ==== Sys2Proof/Decode.lean ====
section
/-! DEFINITION. Decoding (30_encoding.md R90 to R102), total on every word and on every list of bytes; then the
encoder; then the opcode map of R104 as data; then the host's view of the decoder. -/

namespace Sys2Proof

/-! ## Fields (R91) -/

/-- `w[hi:lo]`, an unsigned number of `hi - lo + 1` bits (00_scope.md section 6.1). -/
def slice (w : Word) (hi lo : Nat) : Nat := w.toNat / 2 ^ lo % 2 ^ (hi - lo + 1)

/-- `OP`, the leading nibble `w[15:12]`. -/
def fieldOP (w : Word) : Nat := slice w 15 12

/-- `X`, `w[11:8]`. -/
def fieldX (w : Word) : Reg := ⟨slice w 11 8, Nat.mod_lt _ (by decide)⟩

/-- `Y`, `w[7:4]`. -/
def fieldY (w : Word) : Reg := ⟨slice w 7 4, Nat.mod_lt _ (by decide)⟩

/-- `N`, `w[3:0]`. -/
def fieldN (w : Word) : Nat := slice w 3 0

/-- `NN`, `w[7:0]`. -/
def fieldNN (w : Word) : Byte := BitVec.ofNat 8 (slice w 7 0)

/-- `NNN`, `w[11:0]`, zero-extended to 16 bits (R93). -/
def fieldNNN (w : Word) : Word := BitVec.ofNat 16 (slice w 11 0)

/-! ## The decoder -/

/-- What the decoder answers: one of the 33 instructions, or a rejection by name. -/
inductive Decoded where
  | instr (i : Instr)
  /-- The word matches no row (R100). The step runs it as the no-op of 40_step_cycle.md R124. -/
  | unknownOpcode (w : Word)
  /-- Fewer than two bytes were given: no instruction word (R90). Never met by a step, whose fetch gives two. -/
  | truncated
deriving DecidableEq, Repr

/-- Family 0: the whole word decides (R95). -/
def decodeFamily0 (w : Word) : Decoded :=
  if w = 0x00E0#16 then .instr .cls
  else if w = 0x00EE#16 then .instr .ret
  else .unknownOpcode w

/-- Family 8: `N` decides (R97). -/
def decodeFamily8 (w : Word) : Decoded :=
  match fieldN w with
  | 0x0 => .instr (.ldReg (fieldX w) (fieldY w))
  | 0x1 => .instr (.or (fieldX w) (fieldY w))
  | 0x2 => .instr (.and (fieldX w) (fieldY w))
  | 0x3 => .instr (.xor (fieldX w) (fieldY w))
  | 0x4 => .instr (.addReg (fieldX w) (fieldY w))
  | 0x5 => .instr (.sub (fieldX w) (fieldY w))
  | 0x6 => .instr (.shr (fieldX w) (fieldY w))
  | 0x7 => .instr (.subn (fieldX w) (fieldY w))
  | 0xE => .instr (.shl (fieldX w) (fieldY w))
  | _ => .unknownOpcode w

/-- Family E: `NN` decides (R98). -/
def decodeFamilyE (w : Word) : Decoded :=
  match slice w 7 0 with
  | 0x9E => .instr (.skp (fieldX w))
  | 0xA1 => .instr (.sknp (fieldX w))
  | _ => .unknownOpcode w

/-- Family F: `NN` decides (R99). -/
def decodeFamilyF (w : Word) : Decoded :=
  match slice w 7 0 with
  | 0x07 => .instr (.ldVxDt (fieldX w))
  | 0x0A => .instr (.ldVxKey (fieldX w))
  | 0x15 => .instr (.ldDtVx (fieldX w))
  | 0x18 => .instr (.ldStVx (fieldX w))
  | 0x1E => .instr (.addI (fieldX w))
  | 0x33 => .instr (.ldBcd (fieldX w))
  | 0x55 => .instr (.storeRegs (fieldX w))
  | 0x65 => .instr (.loadRegs (fieldX w))
  | _ => .unknownOpcode w

/-- Dispatch by the leading nibble, nested for families 0, 8, E and F (R94). Families 5 and 9 ignore `N` (R96).
The last arm is never met, since the leading nibble is below 16. -/
def decode (w : Word) : Decoded :=
  match fieldOP w with
  | 0x0 => decodeFamily0 w
  | 0x1 => .instr (.jp (fieldNNN w))
  | 0x2 => .instr (.call (fieldNNN w))
  | 0x3 => .instr (.seImm (fieldX w) (fieldNN w))
  | 0x4 => .instr (.sneImm (fieldX w) (fieldNN w))
  | 0x5 => .instr (.seReg (fieldX w) (fieldY w))
  | 0x6 => .instr (.ldImm (fieldX w) (fieldNN w))
  | 0x7 => .instr (.addImm (fieldX w) (fieldNN w))
  | 0x8 => decodeFamily8 w
  | 0x9 => .instr (.sneReg (fieldX w) (fieldY w))
  | 0xA => .instr (.ldI (fieldNNN w))
  | 0xB => .instr (.jpV0 (fieldNNN w))
  | 0xC => .instr (.rnd (fieldX w) (fieldNN w))
  | 0xD => .instr (.drw (fieldX w) (fieldY w) (fieldN w))
  | 0xE => decodeFamilyE w
  | 0xF => decodeFamilyF w
  | _ => .unknownOpcode w

/-! ## Words and bytes (20_memory.md R63, R90) -/

/-- Big-endian: the byte at the lower address is `w[15:8]` (R63). -/
def wordOfBytes (hi lo : Byte) : Word := hi ++ lo

/-- The two bytes of a word as memory holds them, the first at the lower address (R63). -/
def wordBytes (w : Word) : List Byte := [BitVec.ofNat 8 (slice w 15 8), BitVec.ofNat 8 (slice w 7 0)]

/-- Decode the first instruction of a byte sequence, with the bytes after it. Every instruction, unknown ones
included, is two bytes long (R90, R102). -/
def decodeBytes : List Byte → Decoded × List Byte
  | hi :: lo :: rest => (decode (wordOfBytes hi lo), rest)
  | [b] => (.truncated, [b])
  | [] => (.truncated, [])

/-! ## The encoder (formats of R92) -/

/-- Format `NNN`. -/
def formatNNN (op : Nat) (nnn : Word) : Word := BitVec.ofNat 16 (op * 4096 + nnn.toNat)

/-- Format `XNN`. -/
def formatXNN (op : Nat) (x : Reg) (nn : Byte) : Word := BitVec.ofNat 16 (op * 4096 + x.val * 256 + nn.toNat)

/-- Formats `XY` and `XYN`: `n` is the sub-opcode, the ignored nibble or the count. -/
def formatXYN (op : Nat) (x y : Reg) (n : Nat) : Word :=
  BitVec.ofNat 16 (op * 4096 + x.val * 256 + y.val * 16 + n)

/-- Format `XS`: `sub` is the sub-opcode byte. -/
def formatXS (op : Nat) (x : Reg) (sub : Nat) : Word := BitVec.ofNat 16 (op * 4096 + x.val * 256 + sub)

/-- The word of an instruction; the ignored nibble of 5xy0 and 9xy0 takes its canonical value 0 (R96). -/
def encode : Instr → Word
  | .cls => 0x00E0#16
  | .ret => 0x00EE#16
  | .jp nnn => formatNNN 0x1 nnn
  | .call nnn => formatNNN 0x2 nnn
  | .seImm x nn => formatXNN 0x3 x nn
  | .sneImm x nn => formatXNN 0x4 x nn
  | .seReg x y => formatXYN 0x5 x y 0x0
  | .ldImm x nn => formatXNN 0x6 x nn
  | .addImm x nn => formatXNN 0x7 x nn
  | .ldReg x y => formatXYN 0x8 x y 0x0
  | .or x y => formatXYN 0x8 x y 0x1
  | .and x y => formatXYN 0x8 x y 0x2
  | .xor x y => formatXYN 0x8 x y 0x3
  | .addReg x y => formatXYN 0x8 x y 0x4
  | .sub x y => formatXYN 0x8 x y 0x5
  | .shr x y => formatXYN 0x8 x y 0x6
  | .subn x y => formatXYN 0x8 x y 0x7
  | .shl x y => formatXYN 0x8 x y 0xE
  | .sneReg x y => formatXYN 0x9 x y 0x0
  | .ldI nnn => formatNNN 0xA nnn
  | .jpV0 nnn => formatNNN 0xB nnn
  | .rnd x nn => formatXNN 0xC x nn
  | .drw x y n => formatXYN 0xD x y n
  | .skp x => formatXS 0xE x 0x9E
  | .sknp x => formatXS 0xE x 0xA1
  | .ldVxDt x => formatXS 0xF x 0x07
  | .ldVxKey x => formatXS 0xF x 0x0A
  | .ldDtVx x => formatXS 0xF x 0x15
  | .ldStVx x => formatXS 0xF x 0x18
  | .addI x => formatXS 0xF x 0x1E
  | .ldBcd x => formatXS 0xF x 0x33
  | .storeRegs x => formatXS 0xF x 0x55
  | .loadRegs x => formatXS 0xF x 0x65

/-! ## The opcode map (R104) -/

/-- A row of the opcode map: `w &&& mask = value` selects it. -/
structure OpcodeRow where
  pattern : String
  mask : Word
  value : Word
deriving DecidableEq, Repr

/-- The row selects the word. -/
def OpcodeRow.selects (r : OpcodeRow) (w : Word) : Bool := w &&& r.mask = r.value

/-- The row of each instruction (R104). -/
def opcodeRow : Instr → OpcodeRow
  | .cls => ⟨"00E0", 0xFFFF#16, 0x00E0#16⟩
  | .ret => ⟨"00EE", 0xFFFF#16, 0x00EE#16⟩
  | .jp _ => ⟨"1NNN", 0xF000#16, 0x1000#16⟩
  | .call _ => ⟨"2NNN", 0xF000#16, 0x2000#16⟩
  | .seImm _ _ => ⟨"3xNN", 0xF000#16, 0x3000#16⟩
  | .sneImm _ _ => ⟨"4xNN", 0xF000#16, 0x4000#16⟩
  | .seReg _ _ => ⟨"5xy0", 0xF000#16, 0x5000#16⟩
  | .ldImm _ _ => ⟨"6xNN", 0xF000#16, 0x6000#16⟩
  | .addImm _ _ => ⟨"7xNN", 0xF000#16, 0x7000#16⟩
  | .ldReg _ _ => ⟨"8xy0", 0xF00F#16, 0x8000#16⟩
  | .or _ _ => ⟨"8xy1", 0xF00F#16, 0x8001#16⟩
  | .and _ _ => ⟨"8xy2", 0xF00F#16, 0x8002#16⟩
  | .xor _ _ => ⟨"8xy3", 0xF00F#16, 0x8003#16⟩
  | .addReg _ _ => ⟨"8xy4", 0xF00F#16, 0x8004#16⟩
  | .sub _ _ => ⟨"8xy5", 0xF00F#16, 0x8005#16⟩
  | .shr _ _ => ⟨"8xy6", 0xF00F#16, 0x8006#16⟩
  | .subn _ _ => ⟨"8xy7", 0xF00F#16, 0x8007#16⟩
  | .shl _ _ => ⟨"8xyE", 0xF00F#16, 0x800E#16⟩
  | .sneReg _ _ => ⟨"9xy0", 0xF000#16, 0x9000#16⟩
  | .ldI _ => ⟨"ANNN", 0xF000#16, 0xA000#16⟩
  | .jpV0 _ => ⟨"BNNN", 0xF000#16, 0xB000#16⟩
  | .rnd _ _ => ⟨"CxNN", 0xF000#16, 0xC000#16⟩
  | .drw _ _ _ => ⟨"DXYN", 0xF000#16, 0xD000#16⟩
  | .skp _ => ⟨"Ex9E", 0xF0FF#16, 0xE09E#16⟩
  | .sknp _ => ⟨"ExA1", 0xF0FF#16, 0xE0A1#16⟩
  | .ldVxDt _ => ⟨"Fx07", 0xF0FF#16, 0xF007#16⟩
  | .ldVxKey _ => ⟨"Fx0A", 0xF0FF#16, 0xF00A#16⟩
  | .ldDtVx _ => ⟨"Fx15", 0xF0FF#16, 0xF015#16⟩
  | .ldStVx _ => ⟨"Fx18", 0xF0FF#16, 0xF018#16⟩
  | .addI _ => ⟨"Fx1E", 0xF0FF#16, 0xF01E#16⟩
  | .ldBcd _ => ⟨"Fx33", 0xF0FF#16, 0xF033#16⟩
  | .storeRegs _ => ⟨"Fx55", 0xF0FF#16, 0xF055#16⟩
  | .loadRegs _ => ⟨"Fx65", 0xF0FF#16, 0xF065#16⟩

/-- One instruction of each row, in the table's order. -/
def oneOfEachRow : List Instr :=
  [.cls, .ret, .jp 0, .call 0, .seImm 0 0, .sneImm 0 0, .seReg 0 0, .ldImm 0 0, .addImm 0 0, .ldReg 0 0, .or 0 0] ++
  [.and 0 0, .xor 0 0, .addReg 0 0, .sub 0 0, .shr 0 0, .subn 0 0, .shl 0 0, .sneReg 0 0, .ldI 0, .jpV0 0] ++
  [.rnd 0 0, .drw 0 0 0, .skp 0, .sknp 0, .ldVxDt 0, .ldVxKey 0, .ldDtVx 0, .ldStVx 0, .addI 0, .ldBcd 0] ++
  [.storeRegs 0, .loadRegs 0]

/-- The 33 rows of the opcode map (R104). -/
def opcodeMap : List OpcodeRow := oneOfEachRow.map opcodeRow

/-! ## The host's view -/

/-- The low `nbits` bits of `w` as one instruction word; the bits above are 0. -/
def tableWord (nbits w : Nat) : Word := BitVec.ofNat 16 (w % 2 ^ nbits)

/-- The instruction the decoder reads from the bytes of an instruction word as memory holds them. -/
def decodeTableWord (nbits w : Nat) : Option Instr :=
  match decodeBytes (wordBytes (tableWord nbits w)) with
  | (.instr i, _) => some i
  | (.unknownOpcode _, _) => none
  | (.truncated, _) => none

end Sys2Proof
end

