-- ==== Sys2Proof/Config.lean ====
section
/-! DEFINITION. What is fixed for this hardware (00_scope.md R4, R5) and the one free value, the random draw. -/

namespace Sys2Proof

/-- Which register a shift takes its operand from (00_scope.md R5, parameter `SHIFT_SRC`). -/
inductive ShiftSrc where
  | vy
  | vx
deriving DecidableEq, Repr

namespace Config

/-- `MEM_SIZE`: memory cells, addresses 0..4095 (R4). -/
abbrev memSize : Nat := 4096

/-- `ROM_ORIGIN`: load address and initial `pc` (R4). -/
abbrev romOrigin : Nat := 0x200

/-- `ROM_MAX`: the longest ROM, 3584 bytes (R4). -/
abbrev romMax : Nat := 3584

/-- `STACK_DEPTH` (R5, the spec's decision D5). -/
abbrev stackDepth : Nat := 16

/-- `FB_W`: pixels in a row (R4). -/
abbrev fbWidth : Nat := 64

/-- `FB_H`: rows (R4). -/
abbrev fbHeight : Nat := 32

/-- `SHIFT_SRC` of this hardware (R5, the spec's decision D1). -/
abbrev shiftSrc : ShiftSrc := .vy

/-- `rnd` (10_state.md R33, 42_alu.md R171): the random byte of the n-th executed CxNN. A FREE VALUE: it has no
body, so nothing can be proved about it (log entry 1). -/
opaque rndDraw : Nat → Byte

end Config
end Sys2Proof
end

