-- ==== Sys2Proof/Machine/State.lean ====
section
/-! DEFINITION. The state of CORE (10_state.md R20 to R37), its six faults (60_exceptions.md R270), and the state
after reset (R35). -/

namespace Sys2Proof.Machine

/-- The six fatal defects, in the order of their codes 1 to 6 (60_exceptions.md R270). CORE surfaces a defect by
latching its record in `State.fault` (40_step_cycle.md R126), which is a NEXT state: the step that meets the defect
answers `next` with the latch set, and every later step answers `next` with the same state (R125). So these names are
the codes of the latch, and no step answers `Outcome.fault` (log entry 4; safe: every effect the spec gives happens). -/
inductive Fault where
  /-- Code 1 (R271): latched by the fetch of a step when `pc > 4094`. Safe: the spec's own fault. -/
  | fetchOutOfBounds
  /-- Code 2 (R272): latched by Fx65 and DXYN when the transfer passes 4095. Safe: the spec's own fault. -/
  | memReadOutOfBounds
  /-- Code 3 (R273): latched by Fx33 and Fx55 when the transfer passes 4095. Safe: the spec's own fault. -/
  | memWriteOutOfBounds
  /-- Code 4 (R274): latched by 00EE on an empty call stack. Safe: the spec's own fault. -/
  | stackUnderflow
  /-- Code 5 (R275): latched by 2NNN on a full call stack. Safe: the spec's own fault (decision D5). -/
  | stackOverflow
  /-- Code 6 (R276): latched by Ex9E and ExA1 when `V[X] > 15`. Safe: the spec's own fault (decision D8). -/
  | keyIndexOutOfRange
deriving DecidableEq, Repr

/-- Why the machine turns an operation away without any effect. -/
inductive Refusal where
  /-- An instruction without a meaning. Raised by no arm of this model: every row is modelled. Safe. -/
  | notModelled (mnemonic : String)
  /-- Raised by every host operation but `load_rom` before the first `load_rom` (46_host_operations.md R258). Safe:
  the spec refuses it. -/
  | noRomLoaded
  /-- Raised by `load_rom` for a ROM longer than 3584 bytes (R250). Safe: the spec refuses it. -/
  | romTooLong
deriving DecidableEq, Repr

/-- `run_state` (10_state.md R29). -/
inductive RunState where
  | running
  | waitingForKey
deriving DecidableEq, Repr

/-- The record of a latched fault: `Some(code, at_pc, word, info)` (10_state.md R30). -/
structure FaultRecord where
  code : Fault
  atPc : Word
  word : Word
  info : Word
deriving DecidableEq, Repr

/-- Main memory: the cells that differ from the byte an unlisted address reads as, by rising address. -/
abbrev Memory := List Host.Cell

/-- The framebuffer, row by row: bit `x` of row `y` is the pixel at column `x`, `fb[x + 64 y]` (10_state.md R32). -/
abbrev Framebuffer := Vector (BitVec Config.fbWidth) Config.fbHeight

/-- The whole state of CORE (10_state.md section 1); `draws` is the model's own (log entry 1). -/
structure State where
  /-- `V[0..15]`; `V[15]` is `VF` (R20, R21). -/
  V : Vector Byte 16
  /-- `I` (R22). -/
  I : Word
  /-- `pc` (R23). -/
  pc : Word
  /-- `stack[0..STACK_DEPTH-1]` (R24). -/
  stack : Vector Word Config.stackDepth
  /-- `sp`, the number of entries held (R24). -/
  sp : Fin (Config.stackDepth + 1)
  /-- `dt`, the delay timer (R25). -/
  dt : Byte
  /-- `st`, the sound timer (R26). -/
  st : Byte
  /-- `keys[0..15]`, true = pressed (R27). -/
  keys : Vector Bool 16
  /-- `prev_keys[0..15]` (R28). -/
  prevKeys : Vector Bool 16
  /-- `run_state` (R29). -/
  runState : RunState
  /-- `fault` (R30). -/
  fault : Option FaultRecord
  /-- `mem[0..4095]` (R31). -/
  mem : Memory
  /-- `fb[0..2047]` (R32). -/
  fb : Framebuffer
  /-- How many random draws have been consumed: the model's own field (R33; log entry 1). -/
  draws : Nat
deriving DecidableEq, Repr

/-- The state after `load_rom` of the empty ROM (10_state.md R35; log entries 2 and 6). -/
def State.reset : State where
  V := Vector.replicate 16 0
  I := 0
  pc := BitVec.ofNat 16 Config.romOrigin
  stack := Vector.replicate Config.stackDepth 0
  sp := 0
  dt := 0
  st := 0
  keys := Vector.replicate 16 false
  prevKeys := Vector.replicate 16 false
  runState := .running
  fault := none
  mem := []
  fb := Vector.replicate Config.fbHeight 0
  draws := 0

end Sys2Proof.Machine
end

