-- ==== Sys2Proof/Machine/Ops.lean ====
section
/-! DEFINITION. The named operations over the state: one setter per piece of state, memory, the program counter, the
call stack, the framebuffer, fetching, and `raise`, the one way a fault is taken. -/

namespace Sys2Proof.Machine

/-! ## Setters: the one home of every write -/

/-- `V[x] <- b` (10_state.md R20). No register is hard-wired. -/
def State.setV (s : State) (x : Reg) (b : Byte) : State := { s with V := s.V.set x b }

/-- `I <- a` (R22). -/
def State.setI (s : State) (a : Word) : State := { s with I := a }

/-- `pc <- target` (R23). -/
def State.setPc (s : State) (target : Word) : State := { s with pc := target }

/-- `dt <- b` (R25). -/
def State.setDt (s : State) (b : Byte) : State := { s with dt := b }

/-- `st <- b` (R26). -/
def State.setSt (s : State) (b : Byte) : State := { s with st := b }

/-- `keys <- k` (R27). -/
def State.setKeys (s : State) (k : Vector Bool 16) : State := { s with keys := k }

/-- `prev_keys <- k` (R28). -/
def State.setPrevKeys (s : State) (k : Vector Bool 16) : State := { s with prevKeys := k }

/-- `run_state <- r` (R29). -/
def State.setRunState (s : State) (r : RunState) : State := { s with runState := r }

/-- `fault <- Some(r)` (R30). -/
def State.setFault (s : State) (r : FaultRecord) : State := { s with fault := some r }

/-- Main memory becomes `m` (R31). -/
def State.setMem (s : State) (m : Memory) : State := { s with mem := m }

/-- The framebuffer becomes `f` (R32). -/
def State.setFb (s : State) (f : Framebuffer) : State := { s with fb := f }

/-- The call stack becomes these entries with `n` of them held (R24). -/
def State.setStack (s : State) (entries : Vector Word Config.stackDepth) (n : Fin (Config.stackDepth + 1)) : State :=
  { s with stack := entries, sp := n }

/-- One more random draw has been consumed (R33; log entry 1). -/
def State.consumeDraw (s : State) : State := { s with draws := s.draws + 1 }

/-! ## Main memory (20_memory.md) -/

/-- What an address that is not listed reads as: the reset contents, zero (10_state.md R35; log entry 2). -/
def unlistedByte : Byte := 0

/-- The byte at an address (R66: a read changes nothing). -/
def Memory.read : Memory → Nat → Byte
  | [], _ => unlistedByte
  | (b, v) :: m, a => if a = b then v else Memory.read m a

/-- The cells at every address but `a`. -/
def Memory.erase (m : Memory) (a : Nat) : Memory := m.filter (fun c => c.1 != a)

/-- Put a cell before the first higher address. -/
def Memory.insert (a : Nat) (v : Byte) : Memory → Memory
  | [] => [(a, v)]
  | c :: m => if a < c.1 then (a, v) :: c :: m else c :: Memory.insert a v m

/-- `mem[a] <- v` (R62, R66). The canonical form is kept: a cell that reads as an unlisted one is not listed. -/
def Memory.write (m : Memory) (a : Nat) (v : Byte) : Memory :=
  if v = unlistedByte then Memory.erase m a else Memory.insert a v (Memory.erase m a)

/-- The bytes at `a`, `a+1`, …, `a+n-1` (R65). -/
def Memory.readBytes (m : Memory) (a : Nat) : Nat → List Byte
  | 0 => []
  | n + 1 => Memory.read m a :: Memory.readBytes m (a + 1) n

/-- Single-byte writes at ascending addresses (R65). -/
def Memory.writeBytes (m : Memory) (a : Nat) : List Byte → Memory
  | [] => m
  | b :: bs => Memory.writeBytes (Memory.write m a b) (a + 1) bs

/-- The canonical form: addresses strictly rising and below 4096, no cell equal to an unlisted one. -/
abbrev Memory.wf (m : Memory) : Prop :=
  m.Pairwise (fun c d => c.1 < d.1) ∧ ∀ c ∈ m, c.1 < Config.memSize ∧ c.2 ≠ unlistedByte

/-- A transfer of `n` bytes from `a` would touch an address above 4095. Addresses are unbounded integers: nothing
wraps (R61, R62, R76; 43_index_memory.md R195). -/
def outOfBounds (a n : Nat) : Bool := decide (0 < n ∧ Config.memSize ≤ a + n - 1)

/-- The highest address of a transfer, the `info` of its fault (R195). -/
def lastAddress (a n : Nat) : Nat := a + n - 1

/-- `MemRead` of a whole transfer: nothing when any byte of it is out of bounds (R61, R195). -/
def loadBlock (m : Memory) (a n : Nat) : Option (List Byte) :=
  if outOfBounds a n then none else some (Memory.readBytes m a n)

/-- `MemWrite` of a whole transfer: nothing is written when any byte of it is out of bounds (R62, R195). -/
def storeBlock (m : Memory) (a : Nat) (bs : List Byte) : Option Memory :=
  if outOfBounds a bs.length then none else some (Memory.writeBytes m a bs)

/-! ## The program counter (40_step_cycle.md R122, R130) -/

/-- `npc`, the fetch address plus 2 (R122). -/
def npc (s : State) : Word := s.pc + 2#16

/-- `pc <- npc`: the sequential source. -/
def advance (s : State) : State := s.setPc (npc s)

/-- `pc <- npc + 2` when the condition holds, else `pc <- npc`: the skip source. -/
def skipIf (condition : Bool) (s : State) : State := s.setPc (if condition then npc s + 2#16 else npc s)

/-! ## Taking a fault (40_step_cycle.md R126, 60_exceptions.md R280) -/

/-- `raise <code>(info)`: the step ends with the record latched and every other piece of state, `pc` included, as it
was. `w` is the faulting word, 0 for a fetch fault; `info` is kept modulo 65536. There is no return from a fault and
nothing but `load_rom` clears the latch (R281). -/
def raise (code : Fault) (w : Word) (info : Nat) (s : State) : Host.Outcome State Fault Refusal :=
  .next (s.setFault ⟨code, s.pc, w, BitVec.ofNat 16 info⟩)

/-- CORE is halted: a fault is latched (R125). -/
def halted (s : State) : Bool := s.fault.isSome

/-! ## Fetch and unknown opcodes (40_step_cycle.md R121, R124) -/

/-- `MemRead(pc, 2)`, made afresh on every step (20_memory.md R63). -/
def fetch (s : State) : Option Word :=
  match loadBlock s.mem s.pc.toNat 2 with
  | some [hi, lo] => some (wordOfBytes hi lo)
  | _ => none

/-- `FetchOutOfBounds(pc)`, with the word recorded as 0 (60_exceptions.md R271). -/
def raiseFetch (s : State) : Host.Outcome State Fault Refusal := raise .fetchOutOfBounds 0#16 s.pc.toNat s

/-- `NOP*`: any unknown opcode advances `pc` and changes nothing else (R124). -/
def execUnknown (s : State) : Host.Outcome State Fault Refusal := .next (advance s)

/-- A whole word stored where the step fetches, if the fetch is in bounds. -/
def storeWordAtPc (s : State) (w : Word) : State :=
  match storeBlock s.mem s.pc.toNat (wordBytes w) with
  | some m => s.setMem m
  | none => s

/-! ## The call stack (41_control_flow.md R148) -/

/-- `Push(v)`: nothing when the stack is full. -/
def push (s : State) (v : Word) : Option State :=
  if h : s.sp.val < Config.stackDepth then
    some (s.setStack (s.stack.set s.sp.val v h) ⟨s.sp.val + 1, Nat.succ_lt_succ h⟩)
  else none

/-- `Pop()`: the top entry and the state without it; nothing when the stack is empty. The store is not cleared. -/
def pop (s : State) : Option (Word × State) :=
  if h : 0 < s.sp.val then
    some (s.stack[s.sp.val - 1]'(by have := s.sp.isLt; omega),
      s.setStack s.stack ⟨s.sp.val - 1, by have := s.sp.isLt; omega⟩)
  else none

/-! ## Registers in bulk (43_index_memory.md R193, R194) -/

/-- `V[0]`, …, `V[x]` in ascending order. -/
def regBlock (s : State) (x : Reg) : List Byte := s.V.toList.take (x.val + 1)

/-- `V[k] <- bs[k]` for every `k` the list has; the registers past its end keep their value. -/
def State.setRegs (s : State) (bs : List Byte) : State :=
  { s with V := Vector.ofFn fun r => bs.getD r.val s.V[r] }

/-! ## The framebuffer (20_memory.md R75, 44_draw.md) -/

/-- `FbRead(x, y)`. The writer never asks outside 64×32 (R75); there it would read 0. -/
def fbRead (f : Framebuffer) (x y : Nat) : Bool :=
  if h : y < Config.fbHeight then f[y].getLsbD x else false

/-- One bit of a row. -/
def setBit (row : BitVec Config.fbWidth) (x : Nat) (b : Bool) : BitVec Config.fbWidth :=
  if b then row ||| (1#Config.fbWidth <<< x) else row &&& ~~~(1#Config.fbWidth <<< x)

/-- `FbWrite(x, y, b)`. -/
def fbWrite (f : Framebuffer) (x y : Nat) (b : Bool) : Framebuffer :=
  if h : y < Config.fbHeight then f.set y (setBit f[y] x b) else f

/-- The clear screen. -/
def clearFb : Framebuffer := Vector.replicate Config.fbHeight 0

/-- What DXYN carries from pixel to pixel: the framebuffer so far and the collision accumulator (R214). -/
structure Canvas where
  fb : Framebuffer
  collision : Bool
deriving DecidableEq, Repr

/-- One sprite pixel at column `x`, row `y`: clipped outside 64×32 (R213), ignored when the sprite bit is 0, else
XORed, with a collision when the old pixel was 1 (R211, R214). -/
def drawPixel (x y : Nat) (bit : Bool) (c : Canvas) : Canvas :=
  if y > 31 then c
  else if x > 63 then c
  else if bit then
    { fb := fbWrite c.fb x y (fbRead c.fb x y ^^ true), collision := c.collision || fbRead c.fb x y }
  else c

/-- One sprite row: bit 7 of the byte is the leftmost pixel (R212). -/
def drawRow (x0 y : Nat) (row : Byte) (c : Canvas) : Canvas :=
  (List.range 8).foldl (fun c k => drawPixel (x0 + k) y (row.getLsbD (7 - k)) c) c

/-- The rows of a sprite from row `y` downward (R211). -/
def drawRows (x0 : Nat) : Nat → List Byte → Canvas → Canvas
  | _, [], c => c
  | y, row :: rows, c => drawRows x0 (y + 1) rows (drawRow x0 y row c)

end Sys2Proof.Machine
end

