-- ==== Sys2Proof/Machine/Operands.lean ====
section
/-! DEFINITION. Every operand form of the instruction set (30_encoding.md R93): a register, the shift source, the
absolute address plus `V[0]`, and `I + k`. Immediates are used as decoded. -/

namespace Sys2Proof.Machine

/-- `V[x]` as it was before any write of the step (40_step_cycle.md R129, 42_alu.md R172). -/
def readV (s : State) (x : Reg) : Byte := s.V[x]

/-- The register number of `VF` (00_scope.md R4, `FLAG_REG`). -/
abbrev flagReg : Reg := 15

/-- The operand of a shift, which gives both the result and the flag (42_alu.md R168, R170). -/
def shiftSource (src : ShiftSrc) (x y : Reg) (s : State) : Byte :=
  match src with
  | .vy => readV s y
  | .vx => readV s x

/-- `(NNN + V[0]) mod 65536`, not reduced to 12 bits (41_control_flow.md R147). -/
def indexedTarget (nnn : Word) (s : State) : Word := BitVec.ofNat 16 (nnn.toNat + (readV s 0).toNat)

/-- The base of every transfer, `I` as an unbounded integer (20_memory.md R76). -/
def indexBase (s : State) : Nat := s.I.toNat

/-- The hundreds, tens and units digits of a byte (43_index_memory.md R192). -/
def bcdDigits (v : Byte) : List Byte :=
  [BitVec.ofNat 8 (v.toNat / 100), BitVec.ofNat 8 (v.toNat / 10 % 10), BitVec.ofNat 8 (v.toNat % 10)]

/-- The origin column of a sprite, `V[X] mod 64` (44_draw.md R213). -/
def originX (s : State) (x : Reg) : Nat := (readV s x).toNat % Config.fbWidth

/-- The origin row of a sprite, `V[Y] mod 32` (R213). -/
def originY (s : State) (y : Reg) : Nat := (readV s y).toNat % Config.fbHeight

/-- The key an operand byte names: none above 15 (45_timer_keypad.md R233). -/
def keyState (s : State) (k : Byte) : Option Bool := s.keys[k.toNat]?

/-- The pressed key with the lowest index (R236). -/
def firstPressed (keys : Vector Bool 16) : Option Reg := (List.finRange 16).find? fun k => keys[k]

end Sys2Proof.Machine
end

