-- ==== Sys2Proof/Machine/Flags.lean ====
section
/-! DEFINITION. Every flag computation of the machine: `VF` is the one flag, and its value as a flag is 0 or 1
(10_state.md R21, 42_alu.md R172, R173). -/

namespace Sys2Proof.Machine

/-- A flag as the byte written to `VF`. -/
def flagByte (b : Bool) : Byte := if b then 1 else 0

/-- Carry of an 8-bit addition: `a + b > 255` (R173). -/
def carry (a b : Byte) : Bool := a.toNat + b.toNat > 255

/-- The complement of borrow of `a - b`: `a ≥ b` (R173). -/
def notBorrow (a b : Byte) : Bool := a.toNat ≥ b.toNat

/-- The bit shifted out to the right, `s[0]` (R168). -/
def shiftedOutRight (v : Byte) : Bool := v.getLsbD 0

/-- The bit shifted out to the left, `s[7]` (R170). -/
def shiftedOutLeft (v : Byte) : Bool := v.getLsbD 7

/-- The result to `V[x]`, THEN the flag to `V[15]`: with `x = 15` the flag wins (R172). -/
def writeResultThenFlag (x : Reg) (result : Byte) (flag : Bool) (s : State) : State :=
  (s.setV x result).setV flagReg (flagByte flag)

end Sys2Proof.Machine
end

