-- ==== Sys2Proof/Machine/Alu.lean ====
section
/-! DEFINITION. Register load, arithmetic, logic, shift and random: 6xNN, 7xNN, 8xy0 to 8xy7, 8xyE, CxNN
(42_alu.md). Operands are read before any write; byte arithmetic wraps modulo 256 (R172, R173). -/

namespace Sys2Proof.Machine

/-- 6xNN `LD Vx, nn` (R160). -/
def execLdImm (x : Reg) (nn : Byte) (s : State) : Host.Outcome State Fault Refusal := .next (advance (s.setV x nn))

/-- 7xNN `ADD Vx, nn`, no flag (R161). -/
def execAddImm (x : Reg) (nn : Byte) (s : State) : Host.Outcome State Fault Refusal :=
  .next (advance (s.setV x (readV s x + nn)))

/-- 8xy0 `LD Vx, Vy` (R162). -/
def execLdReg (x y : Reg) (s : State) : Host.Outcome State Fault Refusal := .next (advance (s.setV x (readV s y)))

/-- 8xy1 `OR Vx, Vy` (R163). -/
def execOr (x y : Reg) (s : State) : Host.Outcome State Fault Refusal :=
  .next (advance (s.setV x (readV s x ||| readV s y)))

/-- 8xy2 `AND Vx, Vy` (R164). -/
def execAnd (x y : Reg) (s : State) : Host.Outcome State Fault Refusal :=
  .next (advance (s.setV x (readV s x &&& readV s y)))

/-- 8xy3 `XOR Vx, Vy` (R165). -/
def execXor (x y : Reg) (s : State) : Host.Outcome State Fault Refusal :=
  .next (advance (s.setV x (readV s x ^^^ readV s y)))

/-- 8xy4 `ADD Vx, Vy`, `VF` = carry (R166). -/
def execAddReg (x y : Reg) (s : State) : Host.Outcome State Fault Refusal :=
  .next (advance (writeResultThenFlag x (readV s x + readV s y) (carry (readV s x) (readV s y)) s))

/-- 8xy5 `SUB Vx, Vy`, `VF` = not borrow (R167). -/
def execSub (x y : Reg) (s : State) : Host.Outcome State Fault Refusal :=
  .next (advance (writeResultThenFlag x (readV s x - readV s y) (notBorrow (readV s x) (readV s y)) s))

/-- 8xy7 `SUBN Vx, Vy`, `VF` = not borrow of `V[Y] - V[X]` (R169). -/
def execSubn (x y : Reg) (s : State) : Host.Outcome State Fault Refusal :=
  .next (advance (writeResultThenFlag x (readV s y - readV s x) (notBorrow (readV s y) (readV s x)) s))

/-- 8xy6 with the shift source as a parameter (R168). -/
def shrFrom (src : ShiftSrc) (x y : Reg) (s : State) : Host.Outcome State Fault Refusal :=
  .next (advance (writeResultThenFlag x (shiftSource src x y s >>> 1) (shiftedOutRight (shiftSource src x y s)) s))

/-- 8xyE with the shift source as a parameter (R170). -/
def shlFrom (src : ShiftSrc) (x y : Reg) (s : State) : Host.Outcome State Fault Refusal :=
  .next (advance (writeResultThenFlag x (shiftSource src x y s <<< 1) (shiftedOutLeft (shiftSource src x y s)) s))

/-- 8xy6 `SHR Vx, Vy` (R168); this hardware shifts `V[Y]` (R5). -/
def execShr (x y : Reg) (s : State) : Host.Outcome State Fault Refusal := shrFrom Config.shiftSrc x y s

/-- 8xyE `SHL Vx, Vy` (R170); this hardware shifts `V[Y]` (R5). -/
def execShl (x y : Reg) (s : State) : Host.Outcome State Fault Refusal := shlFrom Config.shiftSrc x y s

/-- CxNN `RND Vx, nn`: one fresh random byte is consumed (R171; log entry 1). -/
def execRnd (x : Reg) (nn : Byte) (s : State) : Host.Outcome State Fault Refusal :=
  .next (advance ((s.setV x (Config.rndDraw s.draws &&& nn)).consumeDraw))

end Sys2Proof.Machine
end

