-- ==== Sys2Proof/Machine/Control.lean ====
section
/-! DEFINITION. Control transfer: 00EE, 1NNN, 2NNN, 3xNN, 4xNN, 5xy0, 9xy0, BNNN (41_control_flow.md). -/

namespace Sys2Proof.Machine

/-- 00EE `RET` (R140, R148). -/
def execRet (s : State) : Host.Outcome State Fault Refusal :=
  match pop s with
  | some (t, s') => .next (s'.setPc t)
  | none => raise .stackUnderflow (encode .ret) 0 s

/-- 1NNN `JP nnn` (R141). -/
def execJp (nnn : Word) (s : State) : Host.Outcome State Fault Refusal := .next (s.setPc nnn)

/-- 2NNN `CALL nnn` (R142, R148). -/
def execCall (nnn : Word) (s : State) : Host.Outcome State Fault Refusal :=
  match push s (npc s) with
  | some s' => .next (s'.setPc nnn)
  | none => raise .stackOverflow (encode (.call nnn)) (npc s).toNat s

/-- 3xNN `SE Vx, nn` (R143). -/
def execSeImm (x : Reg) (nn : Byte) (s : State) : Host.Outcome State Fault Refusal :=
  .next (skipIf (readV s x == nn) s)

/-- 4xNN `SNE Vx, nn` (R144). -/
def execSneImm (x : Reg) (nn : Byte) (s : State) : Host.Outcome State Fault Refusal :=
  .next (skipIf (readV s x != nn) s)

/-- 5xy0 `SE Vx, Vy` (R145). -/
def execSeReg (x y : Reg) (s : State) : Host.Outcome State Fault Refusal :=
  .next (skipIf (readV s x == readV s y) s)

/-- 9xy0 `SNE Vx, Vy` (R146). -/
def execSneReg (x y : Reg) (s : State) : Host.Outcome State Fault Refusal :=
  .next (skipIf (readV s x != readV s y) s)

/-- BNNN `JP V0, nnn` (R147). -/
def execJpV0 (nnn : Word) (s : State) : Host.Outcome State Fault Refusal := .next (s.setPc (indexedTarget nnn s))

end Sys2Proof.Machine
end

