-- ==== Sys2Proof/Machine/Display.lean ====
section
/-! DEFINITION. The display instructions: 00E0, DXYN (44_draw.md). -/

namespace Sys2Proof.Machine

/-- 00E0 `CLS` (R210). -/
def execCls (s : State) : Host.Outcome State Fault Refusal := .next (advance (s.setFb clearFb))

/-- DXYN `DRW Vx, Vy, n`: all `n` bytes are read first, `VF` is written once at the end (R211 to R215). -/
def execDrw (x y : Reg) (n : Nat) (s : State) : Host.Outcome State Fault Refusal :=
  match loadBlock s.mem (indexBase s) n with
  | some rows =>
    let c := drawRows (originX s x) (originY s y) rows ⟨s.fb, false⟩
    .next (advance ((s.setFb c.fb).setV flagReg (flagByte c.collision)))
  | none => raise .memReadOutOfBounds (encode (.drw x y n)) (lastAddress (indexBase s) n) s

end Sys2Proof.Machine
end

