-- ==== Sys2Proof/Machine/IndexMemory.lean ====
section
/-! DEFINITION. The index register and the memory transfers: ANNN, Fx1E, Fx33, Fx55, Fx65 (43_index_memory.md). A
transfer is checked whole before its first access and never changes `I` (R195). -/

namespace Sys2Proof.Machine

/-- ANNN `LD I, nnn` (R190). -/
def execLdI (nnn : Word) (s : State) : Host.Outcome State Fault Refusal := .next (advance (s.setI nnn))

/-- Fx1E `ADD I, Vx`, modulo 65536, no flag (R191). -/
def execAddI (x : Reg) (s : State) : Host.Outcome State Fault Refusal :=
  .next (advance (s.setI (s.I + (readV s x).setWidth 16)))

/-- The shared end of Fx33 and Fx55: all of `bs` is stored from `I` upward, or `MemWriteOutOfBounds` is raised. -/
def storeAtIndex (i : Instr) (bs : List Byte) (s : State) : Host.Outcome State Fault Refusal :=
  match storeBlock s.mem (indexBase s) bs with
  | some m => .next (advance (s.setMem m))
  | none => raise .memWriteOutOfBounds (encode i) (lastAddress (indexBase s) bs.length) s

/-- Fx33 `LD B, Vx` (R192). -/
def execLdBcd (x : Reg) (s : State) : Host.Outcome State Fault Refusal :=
  storeAtIndex (.ldBcd x) (bcdDigits (readV s x)) s

/-- Fx55 `LD [I], Vx` (R193). -/
def execStoreRegs (x : Reg) (s : State) : Host.Outcome State Fault Refusal :=
  storeAtIndex (.storeRegs x) (regBlock s x) s

/-- Fx65 `LD Vx, [I]` (R194). -/
def execLoadRegs (x : Reg) (s : State) : Host.Outcome State Fault Refusal :=
  match loadBlock s.mem (indexBase s) (x.val + 1) with
  | some bs => .next (advance (s.setRegs bs))
  | none => raise .memReadOutOfBounds (encode (.loadRegs x)) (lastAddress (indexBase s) (x.val + 1)) s

end Sys2Proof.Machine
end

