-- ==== Sys2Proof/Machine/TimerKeypad.lean ====
section
/-! DEFINITION. Timer and keypad instructions: Fx07, Fx15, Fx18, Ex9E, ExA1, Fx0A (45_timer_keypad.md). -/

namespace Sys2Proof.Machine

/-- Fx07 `LD Vx, DT` (R230). -/
def execLdVxDt (x : Reg) (s : State) : Host.Outcome State Fault Refusal := .next (advance (s.setV x s.dt))

/-- Fx15 `LD DT, Vx` (R231). -/
def execLdDtVx (x : Reg) (s : State) : Host.Outcome State Fault Refusal := .next (advance (s.setDt (readV s x)))

/-- Fx18 `LD ST, Vx` (R232). -/
def execLdStVx (x : Reg) (s : State) : Host.Outcome State Fault Refusal := .next (advance (s.setSt (readV s x)))

/-- The shared key test: skip when the key's state is `wanted`; no masking of the key number (R233, R234). -/
def skipOnKey (i : Instr) (wanted : Bool) (k : Byte) (s : State) : Host.Outcome State Fault Refusal :=
  match keyState s k with
  | some pressed => .next (skipIf (pressed == wanted) s)
  | none => raise .keyIndexOutOfRange (encode i) k.toNat s

/-- Ex9E `SKP Vx` (R233). -/
def execSkp (x : Reg) (s : State) : Host.Outcome State Fault Refusal := skipOnKey (.skp x) true (readV s x) s

/-- ExA1 `SKNP Vx` (R234). -/
def execSknp (x : Reg) (s : State) : Host.Outcome State Fault Refusal := skipOnKey (.sknp x) false (readV s x) s

/-- Fx0A `LD Vx, K` (R235, R236): with no key pressed `pc` holds and the state is WaitingForKey; else the lowest
pressed key is stored and its press consumed. -/
def execLdVxKey (x : Reg) (s : State) : Host.Outcome State Fault Refusal :=
  match firstPressed s.keys with
  | none => .next (s.setRunState .waitingForKey)
  | some k =>
    .next (advance (((s.setV x (BitVec.ofNat 8 k.val)).setKeys (s.keys.set k false)).setRunState .running))

end Sys2Proof.Machine
end

