-- ==== Sys2Proof/Machine/Step.lean ====
section
/-! DEFINITION. One step of the engine (40_step_cycle.md R120): inert on a latched fault, else fetch, decode and
execute exactly one instruction. Each part is a named operation of another file. -/

namespace Sys2Proof.Machine

/-- `step()` (R120, R125). A step in WaitingForKey is an ordinary step (R127). -/
def step (s : State) : Host.Outcome State Fault Refusal :=
  if halted s then .next s
  else
    match fetch s with
    | none => raiseFetch s
    | some w =>
      match decode w with
      | .instr i => exec i s
      | .unknownOpcode _ => execUnknown s
      | .truncated => execUnknown s

/-- The state with the instruction word `w` stored where the step fetches (log entry 6). It stands for the program a
`load_rom` puts there. With `pc > 4094` there is no such place and nothing is stored. -/
def State.withFetchWord (s : State) (nbits w : Nat) : State := storeWordAtPc s (tableWord nbits w)

end Sys2Proof.Machine
end

