-- ==== Sys2Proof/Machine/HostOps.lean ====
section
/-! DEFINITION. The eight host operations, the whole interface between CORE and the host (46_host_operations.md).
Before the first `load_rom` there is no machine (10_state.md R37), so the host's view is an `Option State`. -/

namespace Sys2Proof.Machine

/-- `load_rom(rom)` on a running machine: every piece of state takes its reset value and the ROM lies at 0x200 (R250).
The count of random draws is no state of CORE and goes on (log entry 1). Meant for a ROM that fits. -/
def loadRom (rom : List Byte) (draws : Nat) : State :=
  { State.reset with mem := Memory.writeBytes [] Config.romOrigin rom, draws := draws }

/-- A ROM fits when it has at most 3584 bytes (R250). -/
def romFits (rom : List Byte) : Bool := rom.length ≤ Config.romMax

/-- `set_keys(k)` (R251). -/
def setKeys (k : Vector Bool 16) (s : State) : State := s.setKeys k

/-- `snapshot_previous()` (R252). -/
def snapshotPrevious (s : State) : State := s.setPrevKeys s.keys

/-- One timer's tick: down by one, never below 0 (R253). -/
def tick (b : Byte) : Byte := if b.toNat > 0 then b - 1 else b

/-- `tick_timers()`: each timer on its own (R253). -/
def tickTimers (s : State) : State := (s.setDt (tick s.dt)).setSt (tick s.st)

/-- `sound_active()` (R254). -/
def soundActive (s : State) : Bool := s.st.toNat > 0

/-- `framebuffer()`: the 2048 bits in index order `p = x + 64 y` (R255). -/
def framebufferBits (s : State) : List Bool :=
  (List.range (Config.fbWidth * Config.fbHeight)).map fun p =>
    fbRead s.fb (p % Config.fbWidth) (p / Config.fbWidth)

/-- `status()` (R256). -/
def status (s : State) : RunState × Option FaultRecord := (s.runState, s.fault)

/-- The optional event `diag(w)` of a step taken from `s`: the word of an unknown opcode (40_step_cycle.md R124; log
entry 7). No rule reads it. -/
def diagEvent (s : State) : Option Word :=
  if halted s then none
  else
    match fetch s with
    | none => none
    | some w =>
      match decode w with
      | .instr _ => none
      | .unknownOpcode u => some u
      | .truncated => none

/-- The eight operations (46_host_operations.md, the table). -/
inductive HostOp where
  | loadRom (rom : List Byte)
  | step
  | setKeys (k : Vector Bool 16)
  | snapshotPrevious
  | tickTimers
  | soundActive
  | framebuffer
  | status
deriving DecidableEq, Repr

/-- What an operation hands back to the host. -/
inductive Reply where
  | done
  | bit (b : Bool)
  | bits (bs : List Bool)
  | status (r : RunState) (f : Option FaultRecord)
  /-- The operation was turned away and nothing changed (R250, R258). -/
  | refused (r : Refusal)
  /-- A step that stopped: answered by no step of this model (log entry 4). -/
  | stopped (f : Fault)
deriving DecidableEq, Repr

/-- An operation on a machine that exists. -/
def hostOpRunning (op : HostOp) (s : State) : State × Reply :=
  match op with
  | .loadRom rom => if romFits rom then (Machine.loadRom rom s.draws, .done) else (s, .refused .romTooLong)
  | .step =>
    match step s with
    | .next s' => (s', .done)
    | .fault f => (s, .stopped f)
    | .refused r => (s, .refused r)
  | .setKeys k => (Machine.setKeys k s, .done)
  | .snapshotPrevious => (Machine.snapshotPrevious s, .done)
  | .tickTimers => (Machine.tickTimers s, .done)
  | .soundActive => (s, .bit (Machine.soundActive s))
  | .framebuffer => (s, .bits (framebufferBits s))
  | .status => (s, .status (Machine.status s).1 (Machine.status s).2)

/-- An operation before the first `load_rom`: all but `load_rom` are refused (R258). -/
def hostOpUnloaded (op : HostOp) : Option State × Reply :=
  match op with
  | .loadRom rom => if romFits rom then (some (Machine.loadRom rom 0), .done) else (none, .refused .romTooLong)
  | .step => (none, .refused .noRomLoaded)
  | .setKeys _ => (none, .refused .noRomLoaded)
  | .snapshotPrevious => (none, .refused .noRomLoaded)
  | .tickTimers => (none, .refused .noRomLoaded)
  | .soundActive => (none, .refused .noRomLoaded)
  | .framebuffer => (none, .refused .noRomLoaded)
  | .status => (none, .refused .noRomLoaded)

/-- One host operation, atomic (R257). -/
def hostOp (op : HostOp) (m : Option State) : Option State × Reply :=
  match m with
  | none => hostOpUnloaded op
  | some s => (some (hostOpRunning op s).1, (hostOpRunning op s).2)

/-- A run is any finite sequence of host operations, in any order (R257, R260): the machine it ends in. -/
def hostRun : List HostOp → Option State → Option State
  | [], m => m
  | op :: ops, m => hostRun ops (hostOp op m).1

end Sys2Proof.Machine
end

