-- ==== Sys2Proof/Safety.lean ====
section
/-! DEFINITION. The terms claims are stated in: the parts of a state and what a frame is, the invariant of every
reachable state, and what an encoding selects. -/

namespace Sys2Proof.Machine

/-! ## Frames -/

/-- The parts of a state, each register, memory cell and stack entry by itself. -/
inductive Part where
  | V (r : Reg)
  | I
  | pc
  | stackEntry (k : Fin Config.stackDepth)
  | sp
  | dt
  | st
  | keys
  | prevKeys
  | runState
  | fault
  | mem (a : Nat)
  | fb
  | draws
deriving DecidableEq, Repr

/-- The part holds the same in both states. Memory is compared through the read of one byte. -/
def samePart (s t : State) : Part → Prop
  | .V r => t.V[r] = s.V[r]
  | .I => t.I = s.I
  | .pc => t.pc = s.pc
  | .stackEntry k => t.stack[k] = s.stack[k]
  | .sp => t.sp = s.sp
  | .dt => t.dt = s.dt
  | .st => t.st = s.st
  | .keys => t.keys = s.keys
  | .prevKeys => t.prevKeys = s.prevKeys
  | .runState => t.runState = s.runState
  | .fault => t.fault = s.fault
  | .mem a => Memory.read t.mem a = Memory.read s.mem a
  | .fb => t.fb = s.fb
  | .draws => t.draws = s.draws

/-- Every part that is not listed holds the same in both states. -/
def UnchangedBut (changed : List Part) (s t : State) : Prop := ∀ p : Part, p ∉ changed → samePart s t p

/-- The memory cells `a`, `a+1`, …, `a+n-1`. -/
def cells (a n : Nat) : List Part := (List.range n).map fun k => Part.mem (a + k)

/-- The registers `V[0]`, …, `V[x]`. -/
def regsUpTo (x : Reg) : List Part := ((List.finRange 16).filter (· ≤ x)).map .V

/-! ## Tables of the spec -/

/-- The instructions that write `VF` as a flag (10_state.md R21, 42_alu.md R172). -/
def writesFlag : Instr → Bool
  | .addReg _ _ | .sub _ _ | .shr _ _ | .subn _ _ | .shl _ _ | .drw _ _ _ => true
  | _ => false

/-- The registers an instruction writes as its destination. -/
def destinations : Instr → List Reg
  | .ldImm x _ | .addImm x _ | .rnd x _ => [x]
  | .ldReg x _ | .or x _ | .and x _ | .xor x _ => [x]
  | .addReg x _ | .sub x _ | .shr x _ | .subn x _ | .shl x _ => [x]
  | .ldVxDt x | .ldVxKey x => [x]
  | .loadRegs x => (List.finRange 16).filter (· ≤ x)
  | _ => []

/-- The instructions that can raise a fault (60_exceptions.md R270). -/
def mayFault : Instr → Bool
  | .ret | .call _ | .ldBcd _ | .storeRegs _ | .loadRegs _ | .drw _ _ _ | .skp _ | .sknp _ => true
  | _ => false

/-- The instructions that write `I` (10_state.md R22). -/
def writesIndex : Instr → Bool
  | .ldI _ | .addI _ => true
  | _ => false

/-- The instructions that store to memory (R31). -/
def writesMemory : Instr → Bool
  | .ldBcd _ | .storeRegs _ => true
  | _ => false

/-- The instructions that write the framebuffer (R32). -/
def writesScreen : Instr → Bool
  | .cls | .drw _ _ _ => true
  | _ => false

/-- The instruction is a call, which writes a stack entry (R24). -/
def isCall : Instr → Bool
  | .call _ => true
  | _ => false

/-- The instruction is a return, which with the call moves `sp` (R24). -/
def isReturn : Instr → Bool
  | .ret => true
  | _ => false

/-- The instruction sets the delay timer (R25). -/
def setsDelayTimer : Instr → Bool
  | .ldDtVx _ => true
  | _ => false

/-- The instruction sets the sound timer (R26). -/
def setsSoundTimer : Instr → Bool
  | .ldStVx _ => true
  | _ => false

/-- The instruction is the key wait, which writes `run_state` and consumes a key's press (R27, R29). -/
def isKeyWait : Instr → Bool
  | .ldVxKey _ => true
  | _ => false

/-- The instruction draws a random byte (R33). -/
def drawsRandom : Instr → Bool
  | .rnd _ _ => true
  | _ => false

/-- Which parts of the state an instruction may change at all (10_state.md R20 to R32). -/
def mayChange (i : Instr) : Part → Bool
  | .V r => (destinations i).contains r || (r == 15 && writesFlag i)
  | .I => writesIndex i
  | .pc => true
  | .stackEntry _ => isCall i
  | .sp => isCall i || isReturn i
  | .dt => setsDelayTimer i
  | .st => setsSoundTimer i
  | .keys => isKeyWait i
  | .prevKeys => false
  | .runState => isKeyWait i
  | .fault => mayFault i
  | .mem _ => writesMemory i
  | .fb => writesScreen i
  | .draws => drawsRandom i

/-- The fault an instruction raises in a state, with its `info` before the reduction modulo 65536 (60_exceptions.md
R270, the table). -/
def faultTable (i : Instr) (s : State) : Option (Fault × Nat) :=
  match i with
  | .ret => if s.sp.val = 0 then some (.stackUnderflow, 0) else none
  | .call _ => if s.sp.val = 16 then some (.stackOverflow, s.pc.toNat + 2) else none
  | .ldBcd _ => if 4095 < s.I.toNat + 2 then some (.memWriteOutOfBounds, s.I.toNat + 2) else none
  | .storeRegs x => if 4095 < s.I.toNat + x.val then some (.memWriteOutOfBounds, s.I.toNat + x.val) else none
  | .loadRegs x => if 4095 < s.I.toNat + x.val then some (.memReadOutOfBounds, s.I.toNat + x.val) else none
  | .drw _ _ n => if 0 < n ∧ 4095 < s.I.toNat + n - 1 then some (.memReadOutOfBounds, s.I.toNat + n - 1) else none
  | .skp x | .sknp x => if 15 < s.V[x].toNat then some (.keyIndexOutOfRange, s.V[x].toNat) else none
  | _ => none

/-- The sources of the program-counter mux (40_step_cycle.md R130, the table), one constructor each; a skip carries
whether its condition holds. -/
inductive PcSource where
  | sequential
  | skip (condition : Bool)
  | jump (nnn : Word)
  | indexedJump (nnn : Word)
  | ret
  | hold
deriving DecidableEq, Repr

/-- The source an instruction that does not fault takes (R130, the table). -/
def pcSource (i : Instr) (s : State) : PcSource :=
  match i with
  | .seImm x nn => .skip (s.V[x] = nn)
  | .sneImm x nn => .skip (s.V[x] ≠ nn)
  | .seReg x y => .skip (s.V[x] = s.V[y])
  | .sneReg x y => .skip (s.V[x] ≠ s.V[y])
  | .skp x => .skip (s.keys[s.V[x].toNat]? = some true)
  | .sknp x => .skip (s.keys[s.V[x].toNat]? = some false)
  | .jp nnn => .jump nnn
  | .call nnn => .jump nnn
  | .jpV0 nnn => .indexedJump nnn
  | .ret => .ret
  | .ldVxKey _ => if s.keys.toList.contains true then .sequential else .hold
  | .cls | .ldImm _ _ | .addImm _ _ | .ldReg _ _ | .or _ _ | .and _ _ | .xor _ _ | .addReg _ _ | .sub _ _
  | .shr _ _ | .subn _ _ | .shl _ _ | .ldI _ | .rnd _ _ | .drw _ _ _ | .ldVxDt _ | .ldDtVx _ | .ldStVx _
  | .addI _ | .ldBcd _ | .storeRegs _ | .loadRegs _ => .sequential

/-- The value of each source, over unbounded integers (R130, the table). -/
def PcSource.value (s : State) : PcSource → Nat
  | .sequential => s.pc.toNat + 2
  | .skip condition => if condition then s.pc.toNat + 4 else s.pc.toNat + 2
  | .jump nnn => nnn.toNat
  | .indexedJump nnn => nnn.toNat + s.V[(0 : Reg)].toNat
  | .ret => (s.stack[s.sp.val - 1]?.getD 0).toNat
  | .hold => s.pc.toNat

/-- The largest value of each source (R130, the width notes). DEDUCED for the hold, which has no width note:
it keeps the address of a fetch in bounds (log entry 14; safe). -/
def PcSource.bound : PcSource → Nat
  | .sequential => 4096
  | .skip _ => 4098
  | .jump _ => 0x0FFF
  | .indexedJump _ => 0x10FE
  | .ret => 4096
  | .hold => 4094

/-- The sprite bit that DXYN lays on a pixel: the sprite's row and column there, read from `mem[I]` upward with bit 7
leftmost, origin wrapped, no bit outside the sprite (44_draw.md R211 to R213). -/
def spriteBit (s : State) (x y : Reg) (n px py : Nat) : Bool :=
  decide (s.V[x].toNat % 64 ≤ px ∧ px < s.V[x].toNat % 64 + 8 ∧ s.V[y].toNat % 32 ≤ py ∧ py < s.V[y].toNat % 32 + n) &&
    (Memory.read s.mem (s.I.toNat + (py - s.V[y].toNat % 32))).getLsbD (7 - (px - s.V[x].toNat % 64))

/-- What a host operation other than `load_rom` and `step` may change (10_state.md R36). -/
def hostParts : HostOp → List Part
  | .setKeys _ => [.keys]
  | .snapshotPrevious => [.prevKeys]
  | .tickTimers => [.dt, .st]
  | _ => []

/-- The operation is a `load_rom`. -/
def isLoadRom : HostOp → Bool
  | .loadRom _ => true
  | _ => false

/-! ## The invariant -/

/-- What the fault latch says of the state it stopped: the record names the address of the instruction and its word,
0 when the fetch itself failed (40_step_cycle.md R126, 60_exceptions.md R280). -/
def recordMatches (s : State) (r : FaultRecord) : Prop :=
  r.atPc = s.pc ∧
  (r.code = .fetchOutOfBounds → fetch s = none ∧ r.word = 0#16) ∧
  (r.code ≠ .fetchOutOfBounds → fetch s = some r.word)

/-- What holds of every state a run can reach. -/
structure State.Inv (s : State) : Prop where
  /-- Memory is in canonical form, every listed address below 4096. -/
  memCanonical : Memory.wf s.mem
  /-- The largest value `pc` can hold (10_state.md R23, 40_step_cycle.md R130). -/
  pcBound : s.pc.toNat ≤ 0x10FE
  /-- Every held return address is the `npc` of a call (R130). -/
  returnBound : ∀ k : Fin Config.stackDepth, k.val < s.sp.val → s.stack[k].toNat ≤ 4096
  /-- A waiting machine stands at an Fx0A (40_step_cycle.md R127). -/
  waitingAtKeyWait : s.runState = .waitingForKey → ∃ x : Reg, fetch s = some (encode (.ldVxKey x))
  /-- A waiting machine has met no fault: Fx0A raises none (60_exceptions.md R276). -/
  waitingNotFaulted : s.runState = .waitingForKey → s.fault = none
  /-- A latched fault is precise (R126, R280). -/
  faultPrecise : ∀ r : FaultRecord, s.fault = some r → recordMatches s r

/-! ## Encodings and outcomes -/

/-- Every word with these fixed bits decodes to the instruction its fields give. -/
def encodedAs (mask value : Word) (instr : Word → Instr) : Prop :=
  ∀ w : Word, w &&& mask = value → decode w = .instr (instr w)

/-- The next state of an outcome, if it has one. -/
def nextState? : Host.Outcome State Fault Refusal → Option State
  | .next s => some s
  | .fault _ => none
  | .refused _ => none

end Sys2Proof.Machine
end

