-- ==== Sys2Proof/Certificates/Slice0/Obligations.lean ====
section
/-! DEFINITION. The statements for the provers. A docstring names the rule or section of spec/ a statement
formalises; where the spec marks a clause as its own decision (D<n>) or inference, or where the model chose, it says so. -/

open Sys2Proof Sys2Proof.Machine

/-! ## Encoding -/

/-- Words written out from the opcode map of 30_encoding.md section 6, at least one of each format, and words that no
row selects. -/
def Obligations.WordsOfEachFormatDecodeAsTheirRows : Prop :=
  decode 0x00E0#16 = .instr .cls ∧ decode 0x1ABC#16 = .instr (.jp 0xABC#16) ∧
  decode 0x3142#16 = .instr (.seImm 1 0x42#8) ∧ decode 0x812E#16 = .instr (.shl 1 2) ∧
  decode 0x5127#16 = .instr (.seReg 1 2) ∧ decode 0xD01F#16 = .instr (.drw 0 1 15) ∧
  decode 0xF255#16 = .instr (.storeRegs 2) ∧ decode 0xEFA1#16 = .instr (.sknp 15) ∧
  decode 0x0000#16 = .unknownOpcode 0x0000#16 ∧ decode 0x812F#16 = .unknownOpcode 0x812F#16 ∧
  decode 0xE19F#16 = .unknownOpcode 0xE19F#16 ∧ decode 0xF129#16 = .unknownOpcode 0xF129#16

/-- Every well-formed instruction is read back from its word, with every operand (30_encoding.md sections 1 to 6). -/
def Obligations.DecodeOfEncodeIsTheInstruction : Prop :=
  ∀ i : Instr, wellFormed i = true → decode (encode i) = .instr i

/-- What the decoder reads is well formed, and encoding it gives the word back, but for the low nibble that 5xy0 and
9xy0 ignore (30_encoding.md section 3; the spec's decision D13 for the ignored nibble). -/
def Obligations.EncodeOfDecodeIsTheWordButForIgnoredNibbles : Prop :=
  ∀ (w : Word) (i : Instr), decode w = .instr i → wellFormed i = true ∧
    (encode i).toNat = if w.toNat / 4096 = 5 ∨ w.toNat / 4096 = 9 then w.toNat / 16 * 16 else w.toNat

/-- The two-level dispatch and the 33 mask/match rows select the same: an instruction's row, and no other, selects its
word; an unknown opcode is a word that no row selects; and nothing else is answered (30_encoding.md sections 3, 4, 6). -/
def Obligations.DecoderAndOpcodeMapSelectTheSame : Prop :=
  opcodeMap.length = 33 ∧
  ∀ w : Word,
    (∀ i : Instr, decode w = .instr i →
      opcodeRow i ∈ opcodeMap ∧ ∀ r ∈ opcodeMap, r.selects w = true ↔ r = opcodeRow i) ∧
    (decode w = .unknownOpcode w ↔ ∀ r ∈ opcodeMap, r.selects w = false) ∧
    (decode w = .unknownOpcode w ∨ ∃ i : Instr, decode w = .instr i)

/-! ## The step cycle -/

/-- With no fault latched and a fetch in bounds, the two bytes at `pc`, high byte first, are decoded, and the step is
`exec` of the instruction they give, with nothing added around it (40_step_cycle.md section 1; 20_memory.md section 3). -/
def Obligations.StepRunsTheDecodedInstruction : Prop :=
  ∀ (s : State) (w : Word) (i : Instr), s.fault = none → s.pc.toNat ≤ 4094 →
    w.toNat = (Memory.read s.mem s.pc.toNat).toNat * 256 + (Memory.read s.mem (s.pc.toNat + 1)).toNat →
    decode w = .instr i → step s = exec i s

/-- A fetch past 4094 latches code 1 with the word recorded as 0 and changes nothing else (60_exceptions.md section 2;
the spec's decisions D7 for the record and D27 for `pc` = 4095). -/
def Obligations.FetchBeyondMemoryLatchesItsFault : Prop :=
  ∀ s : State, s.fault = none → 4094 < s.pc.toNat →
    ∃ t, step s = .next t ∧ t.fault = some ⟨.fetchOutOfBounds, s.pc, 0#16, s.pc⟩ ∧ UnchangedBut [.fault] s t

/-- A word that no row of the opcode map selects is passed over: `pc` advances by 2, nothing else changes, and the
optional diagnostic event carries the word (40_step_cycle.md section 2; the spec's decision D21 for the event). -/
def Obligations.UnknownOpcodeOnlyAdvances : Prop :=
  ∀ (s : State) (w : Word), s.fault = none → fetch s = some w → (∀ r ∈ opcodeMap, r.selects w = false) →
    ∃ t, step s = .next t ∧ t.pc = s.pc + 2#16 ∧ UnchangedBut [.pc] s t ∧ diagEvent s = some w

/-- A step taken with a latched fault changes nothing at all (40_step_cycle.md section 3; the spec's decision D7). -/
def Obligations.FaultedMachineIsInert : Prop :=
  ∀ (s : State) (r : FaultRecord), s.fault = some r → step s = .next s

/-- A step always returns: it answers a next state from every state, reachable or not (70_reset_and_hazards.md section
4, an inference of the spec). -/
def Obligations.StepAlwaysAnswersANextState : Prop := ∀ s : State, ∃ t, step s = .next t

/-- The faults of instructions are raised exactly on the conditions of the table of 60_exceptions.md section 2, with
the record it gives and every other part unchanged; on every other input the latch is left alone (the spec's decisions
D5, D7, D8, D14). That `word` is the encoding of the instruction executed is log entry 5. -/
def Obligations.FaultsAreRaisedExactlyOnTheTabledConditions : Prop :=
  (∀ (i : Instr) (s : State) (c : Fault) (info : Nat), faultTable i s = some (c, info) →
    ∃ t, exec i s = .next t ∧ t.fault = some ⟨c, s.pc, encode i, BitVec.ofNat 16 info⟩ ∧ UnchangedBut [.fault] s t) ∧
  (∀ (i : Instr) (s : State), faultTable i s = none → ∃ t, exec i s = .next t ∧ t.fault = s.fault)

/-- At the end of a step that does not fault `pc` takes the one source its instruction has in the table, never above
that source's bound in a state that meets the invariant; an unknown opcode is sequential, a fault holds `pc`, and
`load_rom` puts 0x200 (40_step_cycle.md sections 3 and 6; 41_control_flow.md; 45_timer_keypad.md). The skip conditions
are the spec's decision D3 (log entries 2 and 12), the unmasked and unaligned targets D16, the precise fault D7 and D14;
the bound 4094 of a hold is the model's inference (log entry 14). -/
def Obligations.ProgramCounterTakesOneOfTheTabledSources : Prop :=
  (∀ (s : State) (w : Word) (i : Instr), s.fault = none → fetch s = some w → decode w = .instr i →
    faultTable i s = none →
      ∃ t, step s = .next t ∧ t.pc.toNat = (pcSource i s).value s % 65536 ∧
        (s.Inv → t.pc.toNat ≤ (pcSource i s).bound)) ∧
  (∀ (s : State) (w : Word), s.fault = none → fetch s = some w → decode w = .unknownOpcode w →
    ∃ t, step s = .next t ∧ t.pc.toNat = s.pc.toNat + 2 ∧ t.pc.toNat ≤ 4096) ∧
  (∀ (s t : State) (r : FaultRecord), step s = .next t → t.fault = some r → t.pc = s.pc) ∧
  (∀ (rom : List Byte) (n : Nat), (loadRom rom n).pc = 0x200#16)

/-- Whatever an instruction changes is one of the parts the spec lets it change: only ANNN and Fx1E write `I`, only
Fx33 and Fx55 memory, only 00E0 and DXYN the framebuffer, only 2NNN and 00EE the call stack, only Fx15 `dt`, only Fx18
`st`, only Fx0A `keys` and `run_state`, nothing `prev_keys`, and a register changes only as a destination or as the flag
(10_state.md sections 2 to 7). -/
def Obligations.InstructionsChangeOnlyTheirNamedParts : Prop :=
  ∀ (i : Instr) (s t : State) (p : Part), exec i s = .next t → ¬ samePart s t p → mayChange i p = true

/-- An instruction that writes `VF` as a flag leaves 0 or 1 in it, also as its own destination; a fault leaves `VF`
(10_state.md section 2; 42_alu.md section 1; 40_step_cycle.md section 3; 44_draw.md; the spec's decisions D11 for the order
of the two writes and D14 for what a fault leaves; log entry 2). -/
def Obligations.FlagWritersLeaveZeroOrOneInVF : Prop :=
  ∀ (i : Instr) (s t : State), exec i s = .next t → writesFlag i = true →
    (faultTable i s = none → t.V[(15 : Reg)] = 0#8 ∨ t.V[(15 : Reg)] = 1#8) ∧
    (faultTable i s ≠ none → t.V[(15 : Reg)] = s.V[(15 : Reg)])

/-! ## The invariant -/

/-- A step from any state that meets the invariant ends in one: canonical memory, bounded `pc` and return addresses, a
waiting machine at its Fx0A, a precise fault (40_step_cycle.md sections 3, 4, 6; 60_exceptions.md section 5). -/
def Obligations.EveryStepKeepsTheInvariant : Prop :=
  ∀ s t : State, s.Inv → step s = .next t → t.Inv

/-- The reset state is the load of the empty ROM and meets the invariant (10_state.md section 9; log entry 6 for the
choice of the empty ROM). -/
def Obligations.ResetIsTheEmptyRomAndMeetsTheInvariant : Prop :=
  hostOp (.loadRom []) none = (some State.reset, .done) ∧ State.reset.Inv

/-- Every state that any sequence of host operations leads to meets the invariant (46_host_operations.md, all sections). -/
def Obligations.EveryReachableStateMeetsTheInvariant : Prop :=
  ∀ (ops : List HostOp) (s : State), hostRun ops none = some s → s.Inv

/-- A machine that waits for a key stays exactly as it is under a step while no key is pressed, and the first step that
finds one pressed resumes at the next instruction (40_step_cycle.md section 4, an inference of the spec). -/
def Obligations.WaitingStepsOnlyPollTheKeys : Prop :=
  ∀ s : State, s.Inv → s.runState = .waitingForKey →
    ((∀ k : Reg, s.keys[k] = false) → step s = .next s) ∧
    ((∃ k : Reg, s.keys[k] = true) → ∃ t, step s = .next t ∧ t.runState = .running ∧ t.pc = s.pc + 2#16)

/-- No step depends on the previous-frame key states or changes them (10_state.md section 6, an inference of the spec). -/
def Obligations.PreviousKeysInfluenceNoStep : Prop :=
  ∀ (s : State) (p : Vector Bool 16),
    ∃ t, step s = .next t ∧ t.prevKeys = s.prevKeys ∧ step (s.setPrevKeys p) = .next (t.setPrevKeys p)

/-! ## Host operations -/

/-- `load_rom` of a ROM that fits, on any machine or none, leaves every part at its reset value and the ROM from 0x200
upward in zeroed memory (10_state.md section 9, the spec's decision D6 for the values the source does not list). -/
def Obligations.LoadRomLeavesTheResetStateWithTheRom : Prop :=
  ∀ (rom : List Byte) (m : Option State), rom.length ≤ 3584 →
    ∃ t, hostOp (.loadRom rom) m = (some t, .done) ∧
      (∀ a : Nat, Memory.read t.mem a
        = if 0x200 ≤ a ∧ a < 0x200 + rom.length then rom.getD (a - 0x200) 0#8 else 0#8) ∧
      Memory.wf t.mem ∧ t.pc = 0x200#16 ∧ t.I = 0#16 ∧ (∀ r : Reg, t.V[r] = 0#8) ∧ t.sp = 0 ∧
      (∀ k : Fin 16, t.stack[k] = 0#16) ∧ t.dt = 0#8 ∧ t.st = 0#8 ∧
      (∀ k : Reg, t.keys[k] = false ∧ t.prevKeys[k] = false) ∧ t.runState = .running ∧ t.fault = none ∧
      (∀ x y : Nat, fbRead t.fb x y = false)

/-- Reset is memoryless: two loads of one ROM agree in every part of CORE, whatever went before; the count of random
draws is no part of CORE and goes on (70_reset_and_hazards.md section 1, an inference of the spec; log entry 1). -/
def Obligations.LoadRomForgetsThePast : Prop :=
  ∀ (rom : List Byte) (m m' : Option State) (t t' : State),
    hostOp (.loadRom rom) m = (some t, .done) → hostOp (.loadRom rom) m' = (some t', .done) →
      t' = { t with draws := t'.draws }

/-- A ROM longer than 3584 bytes, and every operation but `load_rom` before the first `load_rom`, is refused with no
change (46_host_operations.md, the spec's decisions D15 and D19). -/
def Obligations.TooLongRomsAndUnloadedOperationsAreRefused : Prop :=
  (∀ (rom : List Byte) (m : Option State), 3584 < rom.length →
    hostOp (.loadRom rom) m = (m, .refused .romTooLong)) ∧
  (∀ op : HostOp, isLoadRom op = false → hostOp op none = (none, .refused .noRomLoaded))

/-- Of a machine that exists the host changes, without `load_rom` and `step`, only what each operation names (R36). -/
def Obligations.HostOperationsChangeOnlyWhatTheyName : Prop :=
  ∀ (op : HostOp) (s : State), isLoadRom op = false → op ≠ .step →
    ∃ t reply, hostOp op (some s) = (some t, reply) ∧ UnchangedBut (hostParts op) s t

/-- `set_keys(k)` replaces every key state and nothing else (R251). -/
def Obligations.SetKeysReplacesTheKeyStates : Prop :=
  ∀ (k : Vector Bool 16) (s : State), ∃ t, hostOp (.setKeys k) (some s) = (some t, .done) ∧
    (∀ j : Reg, t.keys[j] = k[j]) ∧ UnchangedBut [.keys] s t

/-- `snapshot_previous()` copies the key states and changes nothing else (46_host_operations.md, the spec's decision D23
to keep the operation). -/
def Obligations.SnapshotCopiesTheKeyStates : Prop :=
  ∀ s : State, ∃ t, hostOp .snapshotPrevious (some s) = (some t, .done) ∧
    (∀ j : Reg, t.prevKeys[j] = s.keys[j]) ∧ UnchangedBut [.prevKeys] s t

/-- After `n` ticks each timer stands `n` lower, by itself, and never below 0, in every run state and with or without a
fault (46_host_operations.md; the spec's decision D22 for the tick with a fault latched). -/
def Obligations.TicksCountEachTimerDownToZero : Prop :=
  ∀ (n : Nat) (s : State), ∃ t, hostRun (List.replicate n .tickTimers) (some s) = some t ∧
    t.dt.toNat = s.dt.toNat - n ∧ t.st.toNat = s.st.toNat - n ∧ UnchangedBut [.dt, .st] s t

/-- `sound_active()` is true exactly when the sound timer is above 0, and changes nothing; no operation hands back more
of `st` than that (R254). -/
def Obligations.SoundIsActiveExactlyWhileTheSoundTimerRuns : Prop :=
  (∀ s : State, ∃ b, hostOp .soundActive (some s) = (some s, .bit b) ∧ (b = true ↔ 0 < s.st.toNat)) ∧
  (∀ (op : HostOp) (s : State) (v : Byte), (0 < v.toNat ↔ 0 < s.st.toNat) →
    (hostOp op (some (s.setSt v))).2 = (hostOp op (some s)).2)

/-- `framebuffer()` is the 2048 pixels in index order `x + 64 y`, and changes nothing (R255). -/
def Obligations.FramebufferViewIsEveryPixelInIndexOrder : Prop :=
  ∀ s : State, ∃ bs, hostOp .framebuffer (some s) = (some s, .bits bs) ∧ bs.length = 2048 ∧
    ∀ x y : Nat, x < 64 → y < 32 → bs[x + 64 * y]? = some (fbRead s.fb x y)

/-- A latched fault outlives every sequence of operations without `load_rom`: the record, `pc`, memory, the registers
and the screen stay, and nothing but the key states and the timers may change (60_exceptions.md section 5;
46_host_operations.md; the spec's decisions D7 and D22). -/
def Obligations.LatchedFaultOutlivesAllButLoadRom : Prop :=
  ∀ (ops : List HostOp) (s : State), s.fault ≠ none → (∀ op ∈ ops, isLoadRom op = false) →
    ∃ t, hostRun ops (some s) = some t ∧ UnchangedBut [.keys, .prevKeys, .dt, .st] s t

/-! ## Register load, arithmetic, logic, shift, random -/

/-- 6xNN: the register is `NN` exactly; `VF` is written only as an ordinary destination (R160). -/
def Obligations.LoadImmediateSetsTheRegister : Prop :=
  encodedAs 0xF000#16 0x6000#16 (fun w => .ldImm (fieldX w) (fieldNN w)) ∧
  ∀ (s : State) (x : Reg) (nn : Byte), ∃ t, exec (.ldImm x nn) s = .next t ∧
    t.V[x] = nn ∧ t.pc = s.pc + 2#16 ∧ UnchangedBut [.V x, .pc] s t

/-- 7xNN: the sum modulo 256, no flag (42_alu.md section 2; the spec's decision D11 that `VF` is not written). -/
def Obligations.AddImmediateWrapsWithoutAFlag : Prop :=
  encodedAs 0xF000#16 0x7000#16 (fun w => .addImm (fieldX w) (fieldNN w)) ∧
  ∀ (s : State) (x : Reg) (nn : Byte), ∃ t, exec (.addImm x nn) s = .next t ∧
    t.V[x].toNat = (s.V[x].toNat + nn.toNat) % 256 ∧ t.pc = s.pc + 2#16 ∧ UnchangedBut [.V x, .pc] s t

/-- 8xy0, 8xy1, 8xy2, 8xy3: copy and bitwise OR, AND, XOR, no flag (42_alu.md section 3; the spec's decisions D2, D3 for
the patterns and D11 for `VF`). -/
def Obligations.CopyAndLogicWriteOnlyTheirRegister : Prop :=
  encodedAs 0xF00F#16 0x8000#16 (fun w => .ldReg (fieldX w) (fieldY w)) ∧
  encodedAs 0xF00F#16 0x8001#16 (fun w => .or (fieldX w) (fieldY w)) ∧
  encodedAs 0xF00F#16 0x8002#16 (fun w => .and (fieldX w) (fieldY w)) ∧
  encodedAs 0xF00F#16 0x8003#16 (fun w => .xor (fieldX w) (fieldY w)) ∧
  ∀ (s : State) (x y : Reg),
    (∃ t, exec (.ldReg x y) s = .next t ∧
      t.V[x] = s.V[y] ∧ t.pc = s.pc + 2#16 ∧ UnchangedBut [.V x, .pc] s t) ∧
    (∃ t, exec (.or x y) s = .next t ∧
      (∀ k : Nat, t.V[x].getLsbD k = (s.V[x].getLsbD k || s.V[y].getLsbD k)) ∧
      t.pc = s.pc + 2#16 ∧ UnchangedBut [.V x, .pc] s t) ∧
    (∃ t, exec (.and x y) s = .next t ∧
      (∀ k : Nat, t.V[x].getLsbD k = (s.V[x].getLsbD k && s.V[y].getLsbD k)) ∧
      t.pc = s.pc + 2#16 ∧ UnchangedBut [.V x, .pc] s t) ∧
    (∃ t, exec (.xor x y) s = .next t ∧
      (∀ k : Nat, t.V[x].getLsbD k = (s.V[x].getLsbD k != s.V[y].getLsbD k)) ∧
      t.pc = s.pc + 2#16 ∧ UnchangedBut [.V x, .pc] s t)

/-- 8xy4: the sum modulo 256, then the carry to `VF`, which wins when `X = 15` (42_alu.md section 3; the spec's decision
D11 for the order of the two writes). -/
def Obligations.AddRegistersWritesTheSumThenTheCarry : Prop :=
  encodedAs 0xF00F#16 0x8004#16 (fun w => .addReg (fieldX w) (fieldY w)) ∧
  ∀ (s : State) (x y : Reg), ∃ t, exec (.addReg x y) s = .next t ∧
    (x ≠ 15 → t.V[x].toNat = (s.V[x].toNat + s.V[y].toNat) % 256) ∧
    t.V[(15 : Reg)].toNat = (if s.V[x].toNat + s.V[y].toNat > 255 then 1 else 0) ∧
    t.pc = s.pc + 2#16 ∧ UnchangedBut [.V x, .V 15, .pc] s t

/-- 8xy5: the difference modulo 256, then not-borrow to `VF`, which wins when `X = 15` (42_alu.md section 3; the spec's
decision D11 for the order of the two writes). -/
def Obligations.SubtractRegistersWritesTheDifferenceThenNotBorrow : Prop :=
  encodedAs 0xF00F#16 0x8005#16 (fun w => .sub (fieldX w) (fieldY w)) ∧
  ∀ (s : State) (x y : Reg), ∃ t, exec (.sub x y) s = .next t ∧
    (x ≠ 15 → (t.V[x].toNat : Int) = ((s.V[x].toNat : Int) - s.V[y].toNat) % 256) ∧
    t.V[(15 : Reg)].toNat = (if s.V[x].toNat ≥ s.V[y].toNat then 1 else 0) ∧
    t.pc = s.pc + 2#16 ∧ UnchangedBut [.V x, .V 15, .pc] s t

/-- 8xy7: the reverse difference modulo 256, then its not-borrow to `VF` (42_alu.md section 3; the spec's decision D2
that the instruction exists). -/
def Obligations.ReverseSubtractWritesTheDifferenceThenNotBorrow : Prop :=
  encodedAs 0xF00F#16 0x8007#16 (fun w => .subn (fieldX w) (fieldY w)) ∧
  ∀ (s : State) (x y : Reg), ∃ t, exec (.subn x y) s = .next t ∧
    (x ≠ 15 → (t.V[x].toNat : Int) = ((s.V[y].toNat : Int) - s.V[x].toNat) % 256) ∧
    t.V[(15 : Reg)].toNat = (if s.V[y].toNat ≥ s.V[x].toNat then 1 else 0) ∧
    t.pc = s.pc + 2#16 ∧ UnchangedBut [.V x, .V 15, .pc] s t

/-- 8xy6 and 8xyE: `V[Y]` moved one place, the vacated bit 0, then the bit shifted out to `VF` (42_alu.md section 4; the
spec's decision D1 that `SHIFT_SRC` is `VY`, and D3 for the patterns). -/
def Obligations.ShiftsMoveVYOnePlaceThenTheBitShiftedOut : Prop :=
  encodedAs 0xF00F#16 0x8006#16 (fun w => .shr (fieldX w) (fieldY w)) ∧
  encodedAs 0xF00F#16 0x800E#16 (fun w => .shl (fieldX w) (fieldY w)) ∧
  ∀ (s : State) (x y : Reg),
    (∃ t, exec (.shr x y) s = .next t ∧ (x ≠ 15 → t.V[x].toNat = s.V[y].toNat / 2) ∧
      t.V[(15 : Reg)].toNat = s.V[y].toNat % 2 ∧ t.pc = s.pc + 2#16 ∧ UnchangedBut [.V x, .V 15, .pc] s t) ∧
    (∃ t, exec (.shl x y) s = .next t ∧ (x ≠ 15 → t.V[x].toNat = s.V[y].toNat * 2 % 256) ∧
      t.V[(15 : Reg)].toNat = s.V[y].toNat / 128 ∧ t.pc = s.pc + 2#16 ∧ UnchangedBut [.V x, .V 15, .pc] s t)

/-- CxNN: a random byte masked by `NN`, one draw consumed, no flag (42_alu.md section 5; 10_state.md section 8). The
random byte is a free value: nothing but the mask is said of the result, and the draw counter is the model's own (log
entry 1). -/
def Obligations.RandomByteIsMaskedAndOneDrawConsumed : Prop :=
  encodedAs 0xF000#16 0xC000#16 (fun w => .rnd (fieldX w) (fieldNN w)) ∧
  ∀ (s : State) (x : Reg) (nn : Byte), ∃ t rnd, exec (.rnd x nn) s = .next t ∧ rnd = Config.rndDraw s.draws ∧
    (∀ k : Nat, t.V[x].getLsbD k = (rnd.getLsbD k && nn.getLsbD k)) ∧ t.draws = s.draws + 1 ∧
    t.pc = s.pc + 2#16 ∧ UnchangedBut [.V x, .pc, .draws] s t

/-! ## Control transfer -/

/-- 1NNN: `pc` is `NNN` and nothing else changes; a jump to itself changes nothing at all (41_control_flow.md section 2;
the spec's decision D3 for the pattern). -/
def Obligations.JumpSetsThePcAndNothingElse : Prop :=
  encodedAs 0xF000#16 0x1000#16 (fun w => .jp (fieldNNN w)) ∧
  ∀ (s : State) (nnn : Word), (∃ t, exec (.jp nnn) s = .next t ∧ t.pc = nnn ∧ UnchangedBut [.pc] s t) ∧
    exec (.jp s.pc) s = .next s

/-- 2NNN with room on the stack: the address after the call is pushed and `pc` is `NNN`; the entries below stay
(41_control_flow.md sections 1, 2; the spec's decision D5 for the depth). -/
def Obligations.CallPushesTheAddressAfterIt : Prop :=
  encodedAs 0xF000#16 0x2000#16 (fun w => .call (fieldNNN w)) ∧
  ∀ (s : State) (nnn : Word) (k : Fin 16), s.sp.val = k.val → ∃ t, exec (.call nnn) s = .next t ∧
    t.stack[k] = s.pc + 2#16 ∧ t.sp.val = k.val + 1 ∧ t.pc = nnn ∧ UnchangedBut [.stackEntry k, .sp, .pc] s t

/-- 00EE: the newest entry goes to `pc`, at most 4096 in a state that meets the invariant; on an empty stack
StackUnderflow is raised and nothing else changes (41_control_flow.md sections 1, 2). -/
def Obligations.ReturnPopsTheNewestAddress : Prop :=
  encodedAs 0xFFFF#16 0x00EE#16 (fun _ => .ret) ∧
  (∀ (s : State) (k : Fin 16), s.sp.val = k.val + 1 → ∃ t, exec .ret s = .next t ∧
    t.pc = s.stack[k] ∧ t.sp.val = k.val ∧ UnchangedBut [.sp, .pc] s t ∧ (s.Inv → t.pc.toNat ≤ 4096)) ∧
  (∀ s : State, s.sp.val = 0 → ∃ t r, exec .ret s = .next t ∧ t.fault = some r ∧
    r.code = .stackUnderflow ∧ UnchangedBut [.fault] s t)

/-- A call followed eventually by its return comes back to the instruction after the call: whatever happened in between,
if the stack is as the call left it, the return restores `pc` and the depth (41_control_flow.md section 2; 95_test_vectors.md
S-6; the spec's decision D5 for the depth). -/
def Obligations.CallThenReturnComesBackAfterTheCall : Prop :=
  ∀ (s t u : State) (nnn : Word), s.sp.val < 16 → exec (.call nnn) s = .next t → u.sp = t.sp →
    (∀ k : Fin 16, k.val < t.sp.val → u.stack[k] = t.stack[k]) →
      ∃ v, exec .ret u = .next v ∧ v.pc = s.pc + 2#16 ∧ v.sp = s.sp

/-- 3xNN and 5xy0 skip when equal, 4xNN and 9xy0 when not: `pc` moves by 4 or by 2 and nothing else changes
(41_control_flow.md section 3; the spec's decisions D3 for which condition each has and D13 for the ignored nibble). -/
def Obligations.SkipsComparingRegistersMoveThePcOnly : Prop :=
  encodedAs 0xF000#16 0x3000#16 (fun w => .seImm (fieldX w) (fieldNN w)) ∧
  encodedAs 0xF000#16 0x4000#16 (fun w => .sneImm (fieldX w) (fieldNN w)) ∧
  encodedAs 0xF000#16 0x5000#16 (fun w => .seReg (fieldX w) (fieldY w)) ∧
  encodedAs 0xF000#16 0x9000#16 (fun w => .sneReg (fieldX w) (fieldY w)) ∧
  ∀ (s : State) (x y : Reg) (nn : Byte),
    (∃ t, exec (.seImm x nn) s = .next t ∧
      t.pc = (if s.V[x] = nn then s.pc + 4#16 else s.pc + 2#16) ∧ UnchangedBut [.pc] s t) ∧
    (∃ t, exec (.sneImm x nn) s = .next t ∧
      t.pc = (if s.V[x] = nn then s.pc + 2#16 else s.pc + 4#16) ∧ UnchangedBut [.pc] s t) ∧
    (∃ t, exec (.seReg x y) s = .next t ∧
      t.pc = (if s.V[x] = s.V[y] then s.pc + 4#16 else s.pc + 2#16) ∧ UnchangedBut [.pc] s t) ∧
    (∃ t, exec (.sneReg x y) s = .next t ∧
      t.pc = (if s.V[x] = s.V[y] then s.pc + 2#16 else s.pc + 4#16) ∧ UnchangedBut [.pc] s t)

/-- BNNN: `pc` is `NNN + V[0]` in 16 bits, and for an encoded `NNN` the plain sum, not reduced to 12 bits
(41_control_flow.md section 4; the spec's decision D16). -/
def Obligations.IndexedJumpAddsV0 : Prop :=
  encodedAs 0xF000#16 0xB000#16 (fun w => .jpV0 (fieldNNN w)) ∧
  ∀ (s : State) (nnn : Word), ∃ t, exec (.jpV0 nnn) s = .next t ∧
    t.pc.toNat = (nnn.toNat + s.V[(0 : Reg)].toNat) % 65536 ∧
    (nnn.toNat < 4096 → t.pc.toNat = nnn.toNat + s.V[(0 : Reg)].toNat) ∧ UnchangedBut [.pc] s t

/-! ## Index register and memory transfers -/

/-- ANNN: `I` is `NNN`, always 0..4095 as encoded (R190). -/
def Obligations.LoadIndexSetsI : Prop :=
  encodedAs 0xF000#16 0xA000#16 (fun w => .ldI (fieldNNN w)) ∧ (∀ w : Word, (fieldNNN w).toNat ≤ 4095) ∧
  ∀ (s : State) (nnn : Word), ∃ t, exec (.ldI nnn) s = .next t ∧
    t.I = nnn ∧ t.pc = s.pc + 2#16 ∧ UnchangedBut [.I, .pc] s t

/-- Fx1E: the sum modulo 65536, no flag, no fault (43_index_memory.md; the spec's decision D10). -/
def Obligations.AddToIndexWrapsAtSixteenBits : Prop :=
  encodedAs 0xF0FF#16 0xF01E#16 (fun w => .addI (fieldX w)) ∧
  ∀ (s : State) (x : Reg), ∃ t, exec (.addI x) s = .next t ∧
    t.I.toNat = (s.I.toNat + s.V[x].toNat) % 65536 ∧ t.pc = s.pc + 2#16 ∧ UnchangedBut [.I, .pc] s t

/-- Fx33: the three decimal digits at `I`, `I+1`, `I+2` and no other byte, seen by the next fetch from there; past 4095
MemWriteOutOfBounds with the highest address and nothing else changed (43_index_memory.md; the spec's decision D14 for
the bounds check of the whole transfer). -/
def Obligations.DecimalDigitsAreStoredAtI : Prop :=
  encodedAs 0xF0FF#16 0xF033#16 (fun w => .ldBcd (fieldX w)) ∧
  (∀ (s : State) (x : Reg), s.I.toNat ≤ 4093 → ∃ t, exec (.ldBcd x) s = .next t ∧
    (Memory.read t.mem s.I.toNat).toNat = s.V[x].toNat / 100 ∧
    (Memory.read t.mem (s.I.toNat + 1)).toNat = s.V[x].toNat / 10 % 10 ∧
    (Memory.read t.mem (s.I.toNat + 2)).toNat = s.V[x].toNat % 10 ∧
    t.pc = s.pc + 2#16 ∧ UnchangedBut (.pc :: cells s.I.toNat 3) s t ∧
    (∀ u : State, u.mem = t.mem → u.pc = s.I → ∃ w, fetch u = some w ∧
      w.toNat = s.V[x].toNat / 100 * 256 + s.V[x].toNat / 10 % 10) ∧
    (∀ u : State, u.mem = t.mem → u.pc = s.I + 1#16 → ∃ w, fetch u = some w ∧
      w.toNat = s.V[x].toNat / 10 % 10 * 256 + s.V[x].toNat % 10)) ∧
  (∀ (s : State) (x : Reg), 4093 < s.I.toNat → ∃ t r, exec (.ldBcd x) s = .next t ∧ t.fault = some r ∧
    r.code = .memWriteOutOfBounds ∧ r.info.toNat = (s.I.toNat + 2) % 65536 ∧ UnchangedBut [.fault] s t)

/-- Fx55 in bounds: `V[0]`..`V[X]` at `I` upward and no other byte; `I` stays (43_index_memory.md, an inference of the
spec for `I`; the spec's decision D14 for the bounds check of the whole transfer). -/
def Obligations.StoreRegistersCopiesThemToMemory : Prop :=
  encodedAs 0xF0FF#16 0xF055#16 (fun w => .storeRegs (fieldX w)) ∧
  ∀ (s : State) (x : Reg), s.I.toNat + x.val ≤ 4095 → ∃ t, exec (.storeRegs x) s = .next t ∧
    (∀ k : Reg, k ≤ x → Memory.read t.mem (s.I.toNat + k.val) = s.V[k]) ∧
    t.pc = s.pc + 2#16 ∧ UnchangedBut (.pc :: cells s.I.toNat (x.val + 1)) s t

/-- Fx65: `V[0]`..`V[X]` from `I` upward, higher registers, `I` and memory unchanged; past 4095 MemReadOutOfBounds with
the highest address and nothing else changed (43_index_memory.md; the spec's decision D14 for the bounds check). -/
def Obligations.LoadRegistersCopiesThemFromMemory : Prop :=
  encodedAs 0xF0FF#16 0xF065#16 (fun w => .loadRegs (fieldX w)) ∧
  (∀ (s : State) (x : Reg), s.I.toNat + x.val ≤ 4095 → ∃ t, exec (.loadRegs x) s = .next t ∧
    (∀ k : Reg, k ≤ x → t.V[k] = Memory.read s.mem (s.I.toNat + k.val)) ∧
    t.pc = s.pc + 2#16 ∧ UnchangedBut (.pc :: regsUpTo x) s t) ∧
  (∀ (s : State) (x : Reg), 4095 < s.I.toNat + x.val → ∃ t r, exec (.loadRegs x) s = .next t ∧ t.fault = some r ∧
    r.code = .memReadOutOfBounds ∧ r.info.toNat = (s.I.toNat + x.val) % 65536 ∧ UnchangedBut [.fault] s t)

/-- Fx55 followed by Fx65 with the same `I` and `X` restores `V[0]`..`V[X]`, whatever the registers held in between
(43_index_memory.md; 95_test_vectors.md S-4). -/
def Obligations.StoreThenLoadRestoresTheRegisters : Prop :=
  ∀ (s t u : State) (x : Reg), s.I.toNat + x.val ≤ 4095 → exec (.storeRegs x) s = .next t →
    u.I = t.I → u.mem = t.mem →
      ∃ v, exec (.loadRegs x) u = .next v ∧ ∀ k : Reg, k ≤ x → v.V[k] = s.V[k]

/-- A fetch sees the bytes a store has just written: two neighbouring registers stored by Fx55 are, at their address,
the high and the low byte of the word fetched (20_memory.md section 7, an inference of the spec). -/
def Obligations.FetchSeesTheBytesJustStored : Prop :=
  ∀ (s t u : State) (x j k : Reg), s.I.toNat + x.val ≤ 4095 → exec (.storeRegs x) s = .next t →
    k.val = j.val + 1 → k ≤ x → u.mem = t.mem → u.pc.toNat = s.I.toNat + j.val →
      ∃ w, fetch u = some w ∧ w.toNat = s.V[j].toNat * 256 + s.V[k].toNat

/-! ## Display -/

/-- 00E0: every pixel is 0, and nothing else changes (44_draw.md; the spec's decision D3 for the pattern). -/
def Obligations.ClearScreenClearsEveryPixel : Prop :=
  encodedAs 0xFFFF#16 0x00E0#16 (fun _ => .cls) ∧
  ∀ s : State, ∃ t, exec .cls s = .next t ∧ (∀ x y : Nat, fbRead t.fb x y = false) ∧
    t.pc = s.pc + 2#16 ∧ UnchangedBut [.fb, .pc] s t

/-- DXYN in bounds: every pixel of the screen is XORed with the sprite bit that falls on it, `VF` is 1 exactly when some
pixel was set under a sprite bit, origin wrapped, body clipped, and nothing else changes; a sprite of no rows reads
nothing (44_draw.md; the spec's decisions D4 for the bit order and D14 for the check and the empty sprite). -/
def Obligations.DrawXorsTheSpriteAndReportsAnyCollision : Prop :=
  encodedAs 0xF000#16 0xD000#16 (fun w => .drw (fieldX w) (fieldY w) (fieldN w)) ∧
  ∀ (s : State) (x y : Reg) (n : Nat), n = 0 ∨ s.I.toNat + n - 1 ≤ 4095 →
    ∃ t, exec (.drw x y n) s = .next t ∧
      (∀ px py : Nat, px < 64 → py < 32 →
        fbRead t.fb px py = (fbRead s.fb px py != spriteBit s x y n px py)) ∧
      ((∃ px py : Nat, px < 64 ∧ py < 32 ∧ fbRead s.fb px py = true ∧ spriteBit s x y n px py = true) →
        t.V[(15 : Reg)] = 1#8) ∧
      ((∀ px py : Nat, px < 64 → py < 32 → fbRead s.fb px py = true → spriteBit s x y n px py = false) →
        t.V[(15 : Reg)] = 0#8) ∧
      t.pc = s.pc + 2#16 ∧ UnchangedBut [.fb, .V 15, .pc] s t

/-- Drawing the same sprite at the same place twice restores the screen, and where the first draw set bits without a
collision the second reports one (44_draw.md; 95_test_vectors.md S-5; the spec's decision D14 for the check). -/
def Obligations.DrawingTwiceRestoresTheScreen : Prop :=
  ∀ (s t u : State) (x y : Reg) (n : Nat), x ≠ 15 → y ≠ 15 → n = 0 ∨ s.I.toNat + n - 1 ≤ 4095 →
    exec (.drw x y n) s = .next t → u.I = t.I → u.mem = t.mem → u.fb = t.fb → u.V[x] = t.V[x] → u.V[y] = t.V[y] →
      ∃ v, exec (.drw x y n) u = .next v ∧ v.fb = s.fb ∧
        (t.V[(15 : Reg)] = 0#8 → t.fb ≠ s.fb → v.V[(15 : Reg)] = 1#8)

/-! ## Timers and keypad -/

/-- Fx07: the register is the delay timer, which stays, and which no instruction but Fx15 changes (R230). -/
def Obligations.ReadDelayTimerCopiesIt : Prop :=
  encodedAs 0xF0FF#16 0xF007#16 (fun w => .ldVxDt (fieldX w)) ∧
  (∀ (s : State) (x : Reg), ∃ t, exec (.ldVxDt x) s = .next t ∧
    t.V[x] = s.dt ∧ t.pc = s.pc + 2#16 ∧ UnchangedBut [.V x, .pc] s t) ∧
  (∀ (i : Instr) (s t : State), exec i s = .next t → setsDelayTimer i = false → t.dt = s.dt)

/-- Fx15: the delay timer is the register (R231). -/
def Obligations.SetDelayTimerCopiesTheRegister : Prop :=
  encodedAs 0xF0FF#16 0xF015#16 (fun w => .ldDtVx (fieldX w)) ∧
  ∀ (s : State) (x : Reg), ∃ t, exec (.ldDtVx x) s = .next t ∧
    t.dt = s.V[x] ∧ t.pc = s.pc + 2#16 ∧ UnchangedBut [.dt, .pc] s t

/-- Fx18: the sound timer is the register, and the sound is active at once exactly when that is above 0; no instruction
reads `st` (R232). -/
def Obligations.SetSoundTimerCopiesTheRegister : Prop :=
  encodedAs 0xF0FF#16 0xF018#16 (fun w => .ldStVx (fieldX w)) ∧
  (∀ (s : State) (x : Reg), ∃ t, exec (.ldStVx x) s = .next t ∧
    t.st = s.V[x] ∧ (soundActive t = true ↔ 0 < s.V[x].toNat) ∧
    t.pc = s.pc + 2#16 ∧ UnchangedBut [.st, .pc] s t) ∧
  (∀ (i : Instr) (s t : State) (v : Byte), exec i s = .next t →
    ∃ u, exec i (s.setSt v) = .next u ∧ UnchangedBut [.st] t u)

/-- Ex9E skips when the key `V[X]` names is pressed, ExA1 when it is released; nothing but `pc` changes
(45_timer_keypad.md section 2; the spec's decision D8 that a number above 15 is a fault, stated elsewhere). -/
def Obligations.KeySkipsTestTheCurrentLevel : Prop :=
  encodedAs 0xF0FF#16 0xE09E#16 (fun w => .skp (fieldX w)) ∧
  encodedAs 0xF0FF#16 0xE0A1#16 (fun w => .sknp (fieldX w)) ∧
  ∀ (s : State) (x k : Reg), s.V[x].toNat = k.val →
    (∃ t, exec (.skp x) s = .next t ∧
      t.pc = (if s.keys[k] = true then s.pc + 4#16 else s.pc + 2#16) ∧ UnchangedBut [.pc] s t) ∧
    (∃ t, exec (.sknp x) s = .next t ∧
      t.pc = (if s.keys[k] = true then s.pc + 2#16 else s.pc + 4#16) ∧ UnchangedBut [.pc] s t)

/-- Fx0A with no key pressed: `run_state` is WaitingForKey and nothing else changes, `pc` included (45_timer_keypad.md
section 3). -/
def Obligations.KeyWaitHoldsWhileNoKeyIsPressed : Prop :=
  encodedAs 0xF0FF#16 0xF00A#16 (fun w => .ldVxKey (fieldX w)) ∧
  ∀ (s : State) (x : Reg), (∀ k : Reg, s.keys[k] = false) →
    ∃ t, exec (.ldVxKey x) s = .next t ∧ t.runState = .waitingForKey ∧ UnchangedBut [.runState] s t

/-- Fx0A with a key pressed: the lowest pressed key's index goes to the register, its press alone is consumed, the
machine runs on (45_timer_keypad.md section 3; the spec's decisions D9 for the lowest key and D25 for what is cleared). -/
def Obligations.KeyWaitTakesAndConsumesTheLowestKey : Prop :=
  ∀ (s : State) (x k : Reg), s.keys[k] = true → (∀ j : Reg, j < k → s.keys[j] = false) →
    ∃ t, exec (.ldVxKey x) s = .next t ∧ t.V[x].toNat = k.val ∧ t.keys[k] = false ∧
      (∀ j : Reg, j ≠ k → t.keys[j] = s.keys[j]) ∧ t.runState = .running ∧ t.pc = s.pc + 2#16 ∧
      UnchangedBut [.V x, .keys, .runState, .pc] s t
end

