-- ==== Sys2Proof/Laws/Words.lean ====
section
/-! SUPPORT. Fields, formats and masks of an instruction word as arithmetic on its number. -/

namespace Sys2Proof

theorem slice_lt (w : Word) (hi lo : Nat) : slice w hi lo < 2 ^ (hi - lo + 1) := Nat.mod_lt _ (by positivity)

theorem fieldOP_eq (w : Word) : fieldOP w = w.toNat / 4096 := by
  have := w.isLt
  simp only [fieldOP, slice]; omega

theorem fieldX_val (w : Word) : (fieldX w).val = w.toNat / 256 % 16 := by simp [fieldX, slice]

theorem fieldY_val (w : Word) : (fieldY w).val = w.toNat / 16 % 16 := by simp [fieldY, slice]

theorem fieldN_eq (w : Word) : fieldN w = w.toNat % 16 := by simp [fieldN, slice]

theorem slice_7_0 (w : Word) : slice w 7 0 = w.toNat % 256 := by simp [slice]

theorem slice_15_8 (w : Word) : slice w 15 8 = w.toNat / 256 := by
  have := w.isLt
  simp only [slice]; omega

theorem fieldNN_toNat (w : Word) : (fieldNN w).toNat = w.toNat % 256 := by simp [fieldNN, slice]

theorem fieldNNN_toNat (w : Word) : (fieldNNN w).toNat = w.toNat % 4096 := by
  simp only [fieldNNN, slice, BitVec.toNat_ofNat]; omega

theorem fieldOP_lt (w : Word) : fieldOP w < 16 := slice_lt w 15 12

theorem fieldN_lt (w : Word) : fieldN w < 16 := slice_lt w 3 0

theorem formatNNN_toNat (op : Nat) (nnn : Word) (hop : op < 16) (h : nnn.toNat < 4096) :
    (formatNNN op nnn).toNat = op * 4096 + nnn.toNat := by
  simp only [formatNNN, BitVec.toNat_ofNat]; omega

theorem formatXNN_toNat (op : Nat) (x : Reg) (nn : Byte) (hop : op < 16) :
    (formatXNN op x nn).toNat = op * 4096 + x.val * 256 + nn.toNat := by
  have := x.isLt; have := nn.isLt
  simp only [formatXNN, BitVec.toNat_ofNat]; omega

theorem formatXYN_toNat (op : Nat) (x y : Reg) (n : Nat) (hop : op < 16) (hn : n < 16) :
    (formatXYN op x y n).toNat = op * 4096 + x.val * 256 + y.val * 16 + n := by
  have := x.isLt; have := y.isLt
  simp only [formatXYN, BitVec.toNat_ofNat]; omega

theorem formatXS_toNat (op : Nat) (x : Reg) (sub : Nat) (hop : op < 16) (hs : sub < 256) :
    (formatXS op x sub).toNat = op * 4096 + x.val * 256 + sub := by
  have := x.isLt
  simp only [formatXS, BitVec.toNat_ofNat]; omega

/-! ## The masks of the opcode map -/

theorem and_F000_toNat (w : Word) : (w &&& 0xF000#16).toNat = w.toNat / 4096 * 4096 := by
  have h : w &&& 0xF000#16 = (w >>> 12) <<< 12 := by
    ext i hi
    interval_cases i <;> simp
  rw [h]
  have := w.isLt
  simp only [BitVec.toNat_shiftLeft, BitVec.toNat_ushiftRight, Nat.shiftLeft_eq, Nat.shiftRight_eq_div_pow]
  omega

theorem and_F00F_toNat (w : Word) : (w &&& 0xF00F#16).toNat = w.toNat / 4096 * 4096 + w.toNat % 16 := by
  have h : w &&& 0xF00F#16 = (w >>> 12) <<< 12 ||| (w <<< 12) >>> 12 := by
    ext i hi
    interval_cases i <;> simp
  rw [h]
  have := w.isLt
  have e := Nat.two_pow_add_eq_or_of_lt (b := w.toNat % 16) (i := 12) (by omega) (w.toNat / 4096)
  simp only [BitVec.toNat_or, BitVec.toNat_shiftLeft, BitVec.toNat_ushiftRight, Nat.shiftLeft_eq,
    Nat.shiftRight_eq_div_pow]
  rw [show w.toNat / 2 ^ 12 * 2 ^ 12 % 2 ^ 16 = 2 ^ 12 * (w.toNat / 4096) by omega,
    show w.toNat * 2 ^ 12 % 2 ^ 16 / 2 ^ 12 = w.toNat % 16 by omega, ← e]
  omega

theorem and_F0FF_toNat (w : Word) : (w &&& 0xF0FF#16).toNat = w.toNat / 4096 * 4096 + w.toNat % 256 := by
  have h : w &&& 0xF0FF#16 = (w >>> 12) <<< 12 ||| (w <<< 8) >>> 8 := by
    ext i hi
    interval_cases i <;> simp
  rw [h]
  have := w.isLt
  have e := Nat.two_pow_add_eq_or_of_lt (b := w.toNat % 256) (i := 12) (by omega) (w.toNat / 4096)
  simp only [BitVec.toNat_or, BitVec.toNat_shiftLeft, BitVec.toNat_ushiftRight, Nat.shiftLeft_eq,
    Nat.shiftRight_eq_div_pow]
  rw [show w.toNat / 2 ^ 12 * 2 ^ 12 % 2 ^ 16 = 2 ^ 12 * (w.toNat / 4096) by omega,
    show w.toNat * 2 ^ 8 % 2 ^ 16 / 2 ^ 8 = w.toNat % 256 by omega, ← e]
  omega

theorem and_FFFF (w : Word) : w &&& 0xFFFF#16 = w := by
  ext i hi
  interval_cases i <;> simp

/-! ## Words and bytes -/

theorem wordOfBytes_toNat (hi lo : Byte) : (wordOfBytes hi lo).toNat = hi.toNat * 256 + lo.toNat := by
  have := lo.isLt
  have e := Nat.two_pow_add_eq_or_of_lt (b := lo.toNat) (i := 8) (by omega) hi.toNat
  simp only [wordOfBytes, BitVec.toNat_append, Nat.shiftLeft_eq]
  rw [Nat.mul_comm, ← e]

theorem wordOfBytes_wordBytes (w : Word) :
    wordOfBytes (BitVec.ofNat 8 (slice w 15 8)) (BitVec.ofNat 8 (slice w 7 0)) = w := by
  have := w.isLt
  apply BitVec.eq_of_toNat_eq
  rw [wordOfBytes_toNat]
  simp only [BitVec.toNat_ofNat, slice_15_8, slice_7_0]; omega

theorem decodeBytes_wordBytes (w : Word) (rest : List Byte) :
    decodeBytes (wordBytes w ++ rest) = (decode w, rest) := by
  simp [wordBytes, decodeBytes, wordOfBytes_wordBytes]

end Sys2Proof
end

