-- ==== Sys2Proof/Laws/PerInstr.lean ====
section
/-! SUPPORT. A law of every instruction, one lemma per constructor: the word an instruction is encoded as carries the
fixed bits of its row of the opcode map (30_encoding.md R104). -/

namespace Sys2Proof.Laws.FixedBits

/-- The row of the instruction selects the word it is encoded as. -/
def Statement (i : Instr) : Prop := wellFormed i = true → (opcodeRow i).selects (encode i) = true

theorem of_toNat {w m v : Word} (h : (w &&& m).toNat = v.toNat) (p : String) :
    (OpcodeRow.mk p m v).selects w = true := by
  simpa [OpcodeRow.selects] using BitVec.eq_of_toNat_eq h

theorem formatNNN_selected {op : Nat} {nnn v : Word} (hop : op < 16) (h : fitsAddress nnn = true)
    (hv : v.toNat = op * 4096) (p : String) : (OpcodeRow.mk p 0xF000#16 v).selects (formatNNN op nnn) = true := by
  have hn : nnn.toNat < 4096 := by simpa [fitsAddress] using h
  refine of_toNat ?_ p
  rw [and_F000_toNat, formatNNN_toNat op nnn hop hn, hv]; omega

theorem formatXNN_selected {op : Nat} {x : Reg} {nn : Byte} {v : Word} (hop : op < 16) (hv : v.toNat = op * 4096)
    (p : String) : (OpcodeRow.mk p 0xF000#16 v).selects (formatXNN op x nn) = true := by
  have := x.isLt; have := nn.isLt
  refine of_toNat ?_ p
  rw [and_F000_toNat, formatXNN_toNat op x nn hop, hv]; omega

theorem formatXY_selected {op n : Nat} {x y : Reg} {v : Word} (hop : op < 16) (hn : n < 16)
    (hv : v.toNat = op * 4096) (p : String) : (OpcodeRow.mk p 0xF000#16 v).selects (formatXYN op x y n) = true := by
  have := x.isLt; have := y.isLt
  refine of_toNat ?_ p
  rw [and_F000_toNat, formatXYN_toNat op x y n hop hn, hv]; omega

theorem formatXYN_selected {op n : Nat} {x y : Reg} {v : Word} (hop : op < 16) (hn : n < 16)
    (hv : v.toNat = op * 4096 + n) (p : String) : (OpcodeRow.mk p 0xF00F#16 v).selects (formatXYN op x y n) = true := by
  have := x.isLt; have := y.isLt
  refine of_toNat ?_ p
  rw [and_F00F_toNat, formatXYN_toNat op x y n hop hn, hv]; omega

theorem formatXS_selected {op sub : Nat} {x : Reg} {v : Word} (hop : op < 16) (hs : sub < 256)
    (hv : v.toNat = op * 4096 + sub) (p : String) : (OpcodeRow.mk p 0xF0FF#16 v).selects (formatXS op x sub) = true := by
  have := x.isLt
  refine of_toNat ?_ p
  rw [and_F0FF_toNat, formatXS_toNat op x sub hop hs, hv]; omega

theorem cls : Statement .cls := fun _ => by decide

theorem ret : Statement .ret := fun _ => by decide

theorem jp (nnn : Word) : Statement (.jp nnn) := fun h => formatNNN_selected (by decide) h (by decide) _

theorem call (nnn : Word) : Statement (.call nnn) := fun h => formatNNN_selected (by decide) h (by decide) _

theorem seImm (x : Reg) (nn : Byte) : Statement (.seImm x nn) := fun _ => formatXNN_selected (by decide) (by decide) _

theorem sneImm (x : Reg) (nn : Byte) : Statement (.sneImm x nn) := fun _ => formatXNN_selected (by decide) (by decide) _

theorem seReg (x : Reg) (y : Reg) : Statement (.seReg x y) := fun _ => formatXY_selected (by decide) (by decide) (by decide) _

theorem ldImm (x : Reg) (nn : Byte) : Statement (.ldImm x nn) := fun _ => formatXNN_selected (by decide) (by decide) _

theorem addImm (x : Reg) (nn : Byte) : Statement (.addImm x nn) := fun _ => formatXNN_selected (by decide) (by decide) _

theorem ldReg (x : Reg) (y : Reg) : Statement (.ldReg x y) := fun _ => formatXYN_selected (by decide) (by decide) (by decide) _

theorem or (x : Reg) (y : Reg) : Statement (.or x y) := fun _ => formatXYN_selected (by decide) (by decide) (by decide) _

theorem and (x : Reg) (y : Reg) : Statement (.and x y) := fun _ => formatXYN_selected (by decide) (by decide) (by decide) _

theorem xor (x : Reg) (y : Reg) : Statement (.xor x y) := fun _ => formatXYN_selected (by decide) (by decide) (by decide) _

theorem addReg (x : Reg) (y : Reg) : Statement (.addReg x y) := fun _ => formatXYN_selected (by decide) (by decide) (by decide) _

theorem sub (x : Reg) (y : Reg) : Statement (.sub x y) := fun _ => formatXYN_selected (by decide) (by decide) (by decide) _

theorem shr (x : Reg) (y : Reg) : Statement (.shr x y) := fun _ => formatXYN_selected (by decide) (by decide) (by decide) _

theorem subn (x : Reg) (y : Reg) : Statement (.subn x y) := fun _ => formatXYN_selected (by decide) (by decide) (by decide) _

theorem shl (x : Reg) (y : Reg) : Statement (.shl x y) := fun _ => formatXYN_selected (by decide) (by decide) (by decide) _

theorem sneReg (x : Reg) (y : Reg) : Statement (.sneReg x y) := fun _ => formatXY_selected (by decide) (by decide) (by decide) _

theorem ldI (nnn : Word) : Statement (.ldI nnn) := fun h => formatNNN_selected (by decide) h (by decide) _

theorem jpV0 (nnn : Word) : Statement (.jpV0 nnn) := fun h => formatNNN_selected (by decide) h (by decide) _

theorem rnd (x : Reg) (nn : Byte) : Statement (.rnd x nn) := fun _ => formatXNN_selected (by decide) (by decide) _

theorem drw (x : Reg) (y : Reg) (n : Nat) : Statement (.drw x y n) := fun h => formatXY_selected (by decide) (of_decide_eq_true h) (by decide) _

theorem skp (x : Reg) : Statement (.skp x) := fun _ => formatXS_selected (by decide) (by decide) (by decide) _

theorem sknp (x : Reg) : Statement (.sknp x) := fun _ => formatXS_selected (by decide) (by decide) (by decide) _

theorem ldVxDt (x : Reg) : Statement (.ldVxDt x) := fun _ => formatXS_selected (by decide) (by decide) (by decide) _

theorem ldVxKey (x : Reg) : Statement (.ldVxKey x) := fun _ => formatXS_selected (by decide) (by decide) (by decide) _

theorem ldDtVx (x : Reg) : Statement (.ldDtVx x) := fun _ => formatXS_selected (by decide) (by decide) (by decide) _

theorem ldStVx (x : Reg) : Statement (.ldStVx x) := fun _ => formatXS_selected (by decide) (by decide) (by decide) _

theorem addI (x : Reg) : Statement (.addI x) := fun _ => formatXS_selected (by decide) (by decide) (by decide) _

theorem ldBcd (x : Reg) : Statement (.ldBcd x) := fun _ => formatXS_selected (by decide) (by decide) (by decide) _

theorem storeRegs (x : Reg) : Statement (.storeRegs x) := fun _ => formatXS_selected (by decide) (by decide) (by decide) _

theorem loadRegs (x : Reg) : Statement (.loadRegs x) := fun _ => formatXS_selected (by decide) (by decide) (by decide) _

end Sys2Proof.Laws.FixedBits
end

