-- ==== Sys2Proof/Laws/Decode.lean ====
section
/-! SUPPORT. What the decoder answers on the words of each row (30_encoding.md R94 to R99, R104), and what each row's
mask and match say of a word as a number. -/

namespace Sys2Proof.Machine

theorem decode_of_op (w : Word) : ∀ k, fieldOP w = k → decode w = (match k with
  | 0x0 => decodeFamily0 w
  | 0x1 => .instr (.jp (fieldNNN w))
  | 0x2 => .instr (.call (fieldNNN w))
  | 0x3 => .instr (.seImm (fieldX w) (fieldNN w))
  | 0x4 => .instr (.sneImm (fieldX w) (fieldNN w))
  | 0x5 => .instr (.seReg (fieldX w) (fieldY w))
  | 0x6 => .instr (.ldImm (fieldX w) (fieldNN w))
  | 0x7 => .instr (.addImm (fieldX w) (fieldNN w))
  | 0x8 => decodeFamily8 w
  | 0x9 => .instr (.sneReg (fieldX w) (fieldY w))
  | 0xA => .instr (.ldI (fieldNNN w))
  | 0xB => .instr (.jpV0 (fieldNNN w))
  | 0xC => .instr (.rnd (fieldX w) (fieldNN w))
  | 0xD => .instr (.drw (fieldX w) (fieldY w) (fieldN w))
  | 0xE => decodeFamilyE w
  | 0xF => decodeFamilyF w
  | _ => .unknownOpcode w) := by
  rintro k rfl; rfl

/-! ## Rows as conditions on the number of a word -/

theorem selects_F000 (p : String) (w v : Word) (hv : v.toNat % 4096 = 0) :
    (OpcodeRow.mk p 0xF000#16 v).selects w = true ↔ w.toNat / 4096 = v.toNat / 4096 := by
  simp only [OpcodeRow.selects, decide_eq_true_eq]
  rw [← BitVec.toNat_inj, and_F000_toNat]; omega

theorem selects_F00F (p : String) (w v : Word) (hv : v.toNat / 16 % 256 = 0) :
    (OpcodeRow.mk p 0xF00F#16 v).selects w = true
      ↔ w.toNat / 4096 = v.toNat / 4096 ∧ w.toNat % 16 = v.toNat % 16 := by
  simp only [OpcodeRow.selects, decide_eq_true_eq]
  rw [← BitVec.toNat_inj, and_F00F_toNat]; omega

theorem selects_F0FF (p : String) (w v : Word) (hv : v.toNat / 256 % 16 = 0) :
    (OpcodeRow.mk p 0xF0FF#16 v).selects w = true
      ↔ w.toNat / 4096 = v.toNat / 4096 ∧ w.toNat % 256 = v.toNat % 256 := by
  simp only [OpcodeRow.selects, decide_eq_true_eq]
  rw [← BitVec.toNat_inj, and_F0FF_toNat]; omega

theorem fieldOP_of_F000 {w v : Word} (h : w &&& 0xF000#16 = v) : fieldOP w = v.toNat / 4096 := by
  rw [fieldOP_eq, ← h, and_F000_toNat]; omega

theorem fieldOP_of_F00F {w v : Word} (h : w &&& 0xF00F#16 = v) : fieldOP w = v.toNat / 4096 := by
  rw [fieldOP_eq, ← h, and_F00F_toNat]; omega

theorem fieldN_of_F00F {w v : Word} (h : w &&& 0xF00F#16 = v) : fieldN w = v.toNat % 16 := by
  rw [fieldN_eq, ← h, and_F00F_toNat]; omega

theorem fieldOP_of_F0FF {w v : Word} (h : w &&& 0xF0FF#16 = v) : fieldOP w = v.toNat / 4096 := by
  rw [fieldOP_eq, ← h, and_F0FF_toNat]; omega

theorem low_of_F0FF {w v : Word} (h : w &&& 0xF0FF#16 = v) : slice w 7 0 = v.toNat % 256 := by
  rw [slice_7_0, ← h, and_F0FF_toNat]; omega

/-! ## One lemma per row -/

theorem decodes_cls : encodedAs 0xFFFF#16 0x00E0#16 (fun _ => .cls) := fun w h => by
  rw [and_FFFF] at h; subst h; decide

theorem decodes_ret : encodedAs 0xFFFF#16 0x00EE#16 (fun _ => .ret) := fun w h => by
  rw [and_FFFF] at h; subst h; decide

theorem decodes_jp : encodedAs 0xF000#16 0x1000#16 (fun w => .jp (fieldNNN w)) := fun w h => by
  rw [decode_of_op w 1 (fieldOP_of_F000 h)]; rfl

theorem decodes_call : encodedAs 0xF000#16 0x2000#16 (fun w => .call (fieldNNN w)) := fun w h => by
  rw [decode_of_op w 2 (fieldOP_of_F000 h)]; rfl

theorem decodes_seImm : encodedAs 0xF000#16 0x3000#16 (fun w => .seImm (fieldX w) (fieldNN w)) := fun w h => by
  rw [decode_of_op w 3 (fieldOP_of_F000 h)]; rfl

theorem decodes_sneImm : encodedAs 0xF000#16 0x4000#16 (fun w => .sneImm (fieldX w) (fieldNN w)) := fun w h => by
  rw [decode_of_op w 4 (fieldOP_of_F000 h)]; rfl

theorem decodes_seReg : encodedAs 0xF000#16 0x5000#16 (fun w => .seReg (fieldX w) (fieldY w)) := fun w h => by
  rw [decode_of_op w 5 (fieldOP_of_F000 h)]; rfl

theorem decodes_ldImm : encodedAs 0xF000#16 0x6000#16 (fun w => .ldImm (fieldX w) (fieldNN w)) := fun w h => by
  rw [decode_of_op w 6 (fieldOP_of_F000 h)]; rfl

theorem decodes_addImm : encodedAs 0xF000#16 0x7000#16 (fun w => .addImm (fieldX w) (fieldNN w)) := fun w h => by
  rw [decode_of_op w 7 (fieldOP_of_F000 h)]; rfl

theorem decodes_ldReg : encodedAs 0xF00F#16 0x8000#16 (fun w => .ldReg (fieldX w) (fieldY w)) := fun w h => by
  rw [decode_of_op w 8 (fieldOP_of_F00F h)]; simp [decodeFamily8, fieldN_of_F00F h]

theorem decodes_or : encodedAs 0xF00F#16 0x8001#16 (fun w => .or (fieldX w) (fieldY w)) := fun w h => by
  rw [decode_of_op w 8 (fieldOP_of_F00F h)]; simp [decodeFamily8, fieldN_of_F00F h]

theorem decodes_and : encodedAs 0xF00F#16 0x8002#16 (fun w => .and (fieldX w) (fieldY w)) := fun w h => by
  rw [decode_of_op w 8 (fieldOP_of_F00F h)]; simp [decodeFamily8, fieldN_of_F00F h]

theorem decodes_xor : encodedAs 0xF00F#16 0x8003#16 (fun w => .xor (fieldX w) (fieldY w)) := fun w h => by
  rw [decode_of_op w 8 (fieldOP_of_F00F h)]; simp [decodeFamily8, fieldN_of_F00F h]

theorem decodes_addReg : encodedAs 0xF00F#16 0x8004#16 (fun w => .addReg (fieldX w) (fieldY w)) := fun w h => by
  rw [decode_of_op w 8 (fieldOP_of_F00F h)]; simp [decodeFamily8, fieldN_of_F00F h]

theorem decodes_sub : encodedAs 0xF00F#16 0x8005#16 (fun w => .sub (fieldX w) (fieldY w)) := fun w h => by
  rw [decode_of_op w 8 (fieldOP_of_F00F h)]; simp [decodeFamily8, fieldN_of_F00F h]

theorem decodes_shr : encodedAs 0xF00F#16 0x8006#16 (fun w => .shr (fieldX w) (fieldY w)) := fun w h => by
  rw [decode_of_op w 8 (fieldOP_of_F00F h)]; simp [decodeFamily8, fieldN_of_F00F h]

theorem decodes_subn : encodedAs 0xF00F#16 0x8007#16 (fun w => .subn (fieldX w) (fieldY w)) := fun w h => by
  rw [decode_of_op w 8 (fieldOP_of_F00F h)]; simp [decodeFamily8, fieldN_of_F00F h]

theorem decodes_shl : encodedAs 0xF00F#16 0x800E#16 (fun w => .shl (fieldX w) (fieldY w)) := fun w h => by
  rw [decode_of_op w 8 (fieldOP_of_F00F h)]; simp [decodeFamily8, fieldN_of_F00F h]

theorem decodes_sneReg : encodedAs 0xF000#16 0x9000#16 (fun w => .sneReg (fieldX w) (fieldY w)) := fun w h => by
  rw [decode_of_op w 9 (fieldOP_of_F000 h)]; rfl

theorem decodes_ldI : encodedAs 0xF000#16 0xA000#16 (fun w => .ldI (fieldNNN w)) := fun w h => by
  rw [decode_of_op w 10 (fieldOP_of_F000 h)]; rfl

theorem decodes_jpV0 : encodedAs 0xF000#16 0xB000#16 (fun w => .jpV0 (fieldNNN w)) := fun w h => by
  rw [decode_of_op w 11 (fieldOP_of_F000 h)]; rfl

theorem decodes_rnd : encodedAs 0xF000#16 0xC000#16 (fun w => .rnd (fieldX w) (fieldNN w)) := fun w h => by
  rw [decode_of_op w 12 (fieldOP_of_F000 h)]; rfl

theorem decodes_drw : encodedAs 0xF000#16 0xD000#16 (fun w => .drw (fieldX w) (fieldY w) (fieldN w)) := fun w h => by
  rw [decode_of_op w 13 (fieldOP_of_F000 h)]; rfl

theorem decodes_skp : encodedAs 0xF0FF#16 0xE09E#16 (fun w => .skp (fieldX w)) := fun w h => by
  rw [decode_of_op w 14 (fieldOP_of_F0FF h)]; simp [decodeFamilyE, low_of_F0FF h]

theorem decodes_sknp : encodedAs 0xF0FF#16 0xE0A1#16 (fun w => .sknp (fieldX w)) := fun w h => by
  rw [decode_of_op w 14 (fieldOP_of_F0FF h)]; simp [decodeFamilyE, low_of_F0FF h]

theorem decodes_ldVxDt : encodedAs 0xF0FF#16 0xF007#16 (fun w => .ldVxDt (fieldX w)) := fun w h => by
  rw [decode_of_op w 15 (fieldOP_of_F0FF h)]; simp [decodeFamilyF, low_of_F0FF h]

theorem decodes_ldVxKey : encodedAs 0xF0FF#16 0xF00A#16 (fun w => .ldVxKey (fieldX w)) := fun w h => by
  rw [decode_of_op w 15 (fieldOP_of_F0FF h)]; simp [decodeFamilyF, low_of_F0FF h]

theorem decodes_ldDtVx : encodedAs 0xF0FF#16 0xF015#16 (fun w => .ldDtVx (fieldX w)) := fun w h => by
  rw [decode_of_op w 15 (fieldOP_of_F0FF h)]; simp [decodeFamilyF, low_of_F0FF h]

theorem decodes_ldStVx : encodedAs 0xF0FF#16 0xF018#16 (fun w => .ldStVx (fieldX w)) := fun w h => by
  rw [decode_of_op w 15 (fieldOP_of_F0FF h)]; simp [decodeFamilyF, low_of_F0FF h]

theorem decodes_addI : encodedAs 0xF0FF#16 0xF01E#16 (fun w => .addI (fieldX w)) := fun w h => by
  rw [decode_of_op w 15 (fieldOP_of_F0FF h)]; simp [decodeFamilyF, low_of_F0FF h]

theorem decodes_ldBcd : encodedAs 0xF0FF#16 0xF033#16 (fun w => .ldBcd (fieldX w)) := fun w h => by
  rw [decode_of_op w 15 (fieldOP_of_F0FF h)]; simp [decodeFamilyF, low_of_F0FF h]

theorem decodes_storeRegs : encodedAs 0xF0FF#16 0xF055#16 (fun w => .storeRegs (fieldX w)) := fun w h => by
  rw [decode_of_op w 15 (fieldOP_of_F0FF h)]; simp [decodeFamilyF, low_of_F0FF h]

theorem decodes_loadRegs : encodedAs 0xF0FF#16 0xF065#16 (fun w => .loadRegs (fieldX w)) := fun w h => by
  rw [decode_of_op w 15 (fieldOP_of_F0FF h)]; simp [decodeFamilyF, low_of_F0FF h]

/-- No two rows can select one word. -/
theorem opcodeMap_disjoint :
    ∀ r ∈ opcodeMap, ∀ q ∈ opcodeMap, r.value &&& q.mask = q.value &&& r.mask → r = q := by decide

theorem opcodeRow_mem (i : Instr) : opcodeRow i ∈ opcodeMap := by
  cases i <;> simp [opcodeMap, oneOfEachRow, opcodeRow]

theorem selects_of_decode (w : Word) (i : Instr) (h : decode w = .instr i) :
    (opcodeRow i).selects w = true := by
  have hw := w.isLt
  have hop := fieldOP_eq w
  have hN := fieldN_eq w
  have hS := slice_7_0 w
  unfold decode decodeFamily0 decodeFamily8 decodeFamilyE decodeFamilyF at h
  split at h <;> (try (split at h)) <;> (try (split at h)) <;> first
    | (exfalso; simp at h; done)
    | (cases h
       simp only [opcodeRow]
       first
       | (rw [selects_F000 _ _ _ (by decide)]; simp only [BitVec.toNat_ofNat]; omega)
       | (rw [selects_F00F _ _ _ (by decide)]; simp only [BitVec.toNat_ofNat]; omega)
       | (rw [selects_F0FF _ _ _ (by decide)]; simp only [BitVec.toNat_ofNat]; omega)
       | (subst w; decide))

theorem decode_total (w : Word) : decode w = .unknownOpcode w ∨ ∃ i : Instr, decode w = .instr i := by
  unfold decode decodeFamily0 decodeFamily8 decodeFamilyE decodeFamilyF
  split <;> (try split) <;> (try split) <;> simp

theorem decode_of_selects (w : Word) :
    ∀ r ∈ opcodeMap, r.selects w = true → ∃ i : Instr, decode w = .instr i := by
  intro r hr h
  simp only [opcodeMap, oneOfEachRow, List.cons_append, List.nil_append, List.map_cons, List.map_nil, opcodeRow,
    List.mem_cons, List.not_mem_nil, or_false] at hr
  rcases hr with rfl | rfl | rfl | rfl | rfl | rfl | rfl | rfl | rfl | rfl | rfl | rfl | rfl | rfl | rfl | rfl | rfl |
    rfl | rfl | rfl | rfl | rfl | rfl | rfl | rfl | rfl | rfl | rfl | rfl | rfl | rfl | rfl | rfl
  all_goals simp only [OpcodeRow.selects, decide_eq_true_eq] at h
  · exact ⟨_, decodes_cls w h⟩
  · exact ⟨_, decodes_ret w h⟩
  · exact ⟨_, decodes_jp w h⟩
  · exact ⟨_, decodes_call w h⟩
  · exact ⟨_, decodes_seImm w h⟩
  · exact ⟨_, decodes_sneImm w h⟩
  · exact ⟨_, decodes_seReg w h⟩
  · exact ⟨_, decodes_ldImm w h⟩
  · exact ⟨_, decodes_addImm w h⟩
  · exact ⟨_, decodes_ldReg w h⟩
  · exact ⟨_, decodes_or w h⟩
  · exact ⟨_, decodes_and w h⟩
  · exact ⟨_, decodes_xor w h⟩
  · exact ⟨_, decodes_addReg w h⟩
  · exact ⟨_, decodes_sub w h⟩
  · exact ⟨_, decodes_shr w h⟩
  · exact ⟨_, decodes_subn w h⟩
  · exact ⟨_, decodes_shl w h⟩
  · exact ⟨_, decodes_sneReg w h⟩
  · exact ⟨_, decodes_ldI w h⟩
  · exact ⟨_, decodes_jpV0 w h⟩
  · exact ⟨_, decodes_rnd w h⟩
  · exact ⟨_, decodes_drw w h⟩
  · exact ⟨_, decodes_skp w h⟩
  · exact ⟨_, decodes_sknp w h⟩
  · exact ⟨_, decodes_ldVxDt w h⟩
  · exact ⟨_, decodes_ldVxKey w h⟩
  · exact ⟨_, decodes_ldDtVx w h⟩
  · exact ⟨_, decodes_ldStVx w h⟩
  · exact ⟨_, decodes_addI w h⟩
  · exact ⟨_, decodes_ldBcd w h⟩
  · exact ⟨_, decodes_storeRegs w h⟩
  · exact ⟨_, decodes_loadRegs w h⟩

end Sys2Proof.Machine
end

