-- ==== Sys2Proof/Laws/Display.lean ====
section
/-! SUPPORT. The framebuffer pixel by pixel: what a write, a sprite pixel, a sprite row and a whole sprite do to one
pixel and to the collision accumulator. -/

namespace Sys2Proof.Machine

theorem getLsbD_setBit (row : BitVec Config.fbWidth) (x px : Nat) (b : Bool) (hx : x < 64) :
    (setBit row x b).getLsbD px = if px = x then b else row.getLsbD px := by
  have h1 : (1#Config.fbWidth <<< x).getLsbD px = decide (px = x) := by
    simp only [BitVec.getLsbD_shiftLeft, BitVec.getLsbD_one, Config.fbWidth]
    by_cases h : px = x
    · subst h; simp [hx]
    · rcases Nat.lt_or_gt_of_ne h with hlt | hgt
      · simp [h, hlt]
      · have : px - x ≠ 0 := by omega
        simp [h, this]
  unfold setBit
  cases b
  · by_cases h : px = x
    · subst h
      simp only [Bool.false_eq_true, if_false, if_true, BitVec.getLsbD_and, BitVec.getLsbD_not, h1]
      simp
    · by_cases hp : px < Config.fbWidth
      · simp only [Bool.false_eq_true, if_false, BitVec.getLsbD_and, BitVec.getLsbD_not, h1]
        simp [h, hp]
      · simp [BitVec.getLsbD_of_ge _ _ (Nat.le_of_not_lt hp), h]
  · simp [BitVec.getLsbD_or, h1]
    by_cases h : px = x <;> simp [h]

/-- A framebuffer write changes the one pixel it names. -/
theorem fbRead_fbWrite (f : Framebuffer) (x y px py : Nat) (b : Bool) (hx : x < 64) (hy : y < 32) :
    fbRead (fbWrite f x y b) px py = if px = x ∧ py = y then b else fbRead f px py := by
  simp only [fbWrite, fbRead, Config.fbHeight, hy, dif_pos]
  by_cases hp : py < 32
  · simp only [hp, dif_pos, Vector.getElem_set]
    by_cases h : y = py
    · subst h; simp [getLsbD_setBit _ _ _ _ hx]
    · simp [h, Ne.symm h]
  · have : py ≠ y := by omega
    simp [hp, this]

@[simp] theorem fbRead_clearFb (x y : Nat) : fbRead clearFb x y = false := by
  simp [fbRead, clearFb]

/-- A pixel after one sprite pixel. -/
theorem fbRead_drawPixel (x y : Nat) (bit : Bool) (c : Canvas) (px py : Nat) :
    fbRead (drawPixel x y bit c).fb px py
      = (fbRead c.fb px py ^^ decide (px = x ∧ py = y ∧ x ≤ 63 ∧ y ≤ 31 ∧ bit = true)) := by
  unfold drawPixel
  split
  · next h => have : ¬ y ≤ 31 := by omega
              simp [this]
  · split
    · next h => have : ¬ x ≤ 63 := by omega
                simp [this]
    · split
      · next hy hx hb =>
        have hx' : x ≤ 63 := by omega
        have hy' : y ≤ 31 := by omega
        simp only [fbRead_fbWrite _ x y px py _ (by omega) (by omega)]
        by_cases h : px = x ∧ py = y
        · obtain ⟨rfl, rfl⟩ := h; simp [hb, hx', hy']
        · rw [if_neg h]
          have : ¬ (px = x ∧ py = y ∧ x ≤ 63 ∧ y ≤ 31 ∧ bit = true) := fun q => h ⟨q.1, q.2.1⟩
          simp [this]
      · next hb => simp [hb]

/-- The collision accumulator after one sprite pixel. -/
theorem collision_drawPixel (x y : Nat) (bit : Bool) (c : Canvas) :
    (drawPixel x y bit c).collision = true
      ↔ c.collision = true ∨ (x ≤ 63 ∧ y ≤ 31 ∧ bit = true ∧ fbRead c.fb x y = true) := by
  unfold drawPixel
  split
  · simp; omega
  · split
    · simp; omega
    · split
      · next hy hx hb =>
        have hx' : x ≤ 63 := by omega
        have hy' : y ≤ 31 := by omega
        simp [hb, hx', hy']
      · next hb => simp [hb]

/-- The first `n` columns of a sprite row. -/
def drawColumns (x0 y : Nat) (row : Byte) (n : Nat) (c : Canvas) : Canvas :=
  (List.range n).foldl (fun c k => drawPixel (x0 + k) y (row.getLsbD (7 - k)) c) c

theorem drawColumns_succ (x0 y : Nat) (row : Byte) (n : Nat) (c : Canvas) :
    drawColumns x0 y row (n + 1) c
      = drawPixel (x0 + n) y (row.getLsbD (7 - n)) (drawColumns x0 y row n c) := by
  simp [drawColumns, List.range_succ]

theorem fbRead_drawColumns (x0 y : Nat) (row : Byte) (c : Canvas) (px py n : Nat) :
    fbRead (drawColumns x0 y row n c).fb px py
      = (fbRead c.fb px py ^^ decide (py = y ∧ y ≤ 31 ∧ px ≤ 63 ∧ x0 ≤ px ∧ px < x0 + n ∧
          row.getLsbD (7 - (px - x0)) = true)) := by
  induction n with
  | zero =>
    have h : ¬ (py = y ∧ y ≤ 31 ∧ px ≤ 63 ∧ x0 ≤ px ∧ px < x0 + 0 ∧ row.getLsbD (7 - (px - x0)) = true) := by
      rintro ⟨-, -, -, h1, h2, -⟩; omega
    rw [decide_eq_false h]; simp [drawColumns]
  | succ n ih =>
    rw [drawColumns_succ, fbRead_drawPixel, ih, Bool.xor_assoc]
    congr 1
    by_cases hx : px = x0 + n
    · subst hx
      have h1 : ¬ (x0 + n < x0 + n) := by omega
      have h2 : x0 + n - x0 = n := by omega
      have h3 : x0 ≤ x0 + n := by omega
      have h4 : x0 + n < x0 + (n + 1) := by omega
      simp only [h1, h2, h3, h4, true_and, false_and, and_false, decide_false, Bool.false_xor]
      congr 1
      apply propext
      constructor
      · rintro ⟨a, b, d, e⟩; exact ⟨a, d, b, e⟩
      · rintro ⟨a, b, d, e⟩; exact ⟨a, d, b, e⟩
    · have h1 : (px < x0 + (n + 1)) ↔ (px < x0 + n) := by omega
      simp only [hx, h1, false_and, decide_false, Bool.xor_false]

theorem collision_drawColumns (x0 y : Nat) (row : Byte) (c : Canvas) (n : Nat) :
    (drawColumns x0 y row n c).collision = true
      ↔ c.collision = true ∨ ∃ k, k < n ∧ x0 + k ≤ 63 ∧ y ≤ 31 ∧ row.getLsbD (7 - k) = true ∧
          fbRead c.fb (x0 + k) y = true := by
  induction n with
  | zero => simp [drawColumns]
  | succ n ih =>
    rw [drawColumns_succ, collision_drawPixel, ih, fbRead_drawColumns]
    have h1 : ¬ (x0 + n < x0 + n) := by omega
    simp only [h1, false_and, and_false, decide_false, Bool.xor_false]
    constructor
    · rintro ((h | ⟨k, hk, h⟩) | h)
      · exact .inl h
      · exact .inr ⟨k, by omega, h⟩
      · exact .inr ⟨n, by omega, h⟩
    · rintro (h | ⟨k, hk, h⟩)
      · exact .inl (.inl h)
      · by_cases hkn : k = n
        · subst hkn; exact .inr h
        · exact .inl (.inr ⟨k, by omega, h⟩)

/-- A pixel after a whole sprite row. -/
theorem fbRead_drawRow (x0 y : Nat) (row : Byte) (c : Canvas) (px py : Nat) :
    fbRead (drawRow x0 y row c).fb px py
      = (fbRead c.fb px py ^^ decide (py = y ∧ y ≤ 31 ∧ px ≤ 63 ∧ x0 ≤ px ∧ px < x0 + 8 ∧
          row.getLsbD (7 - (px - x0)) = true)) :=
  fbRead_drawColumns x0 y row c px py 8

/-- The collision accumulator after a whole sprite row. -/
theorem collision_drawRow (x0 y : Nat) (row : Byte) (c : Canvas) :
    (drawRow x0 y row c).collision = true
      ↔ c.collision = true ∨ ∃ k, k < 8 ∧ x0 + k ≤ 63 ∧ y ≤ 31 ∧ row.getLsbD (7 - k) = true ∧
          fbRead c.fb (x0 + k) y = true :=
  collision_drawColumns x0 y row c 8

/-- A pixel after a whole sprite: XORed exactly where a sprite bit 1 falls on the screen. -/
theorem fbRead_drawRows (x0 : Nat) (rows : List Byte) : ∀ (y : Nat) (c : Canvas) (px py : Nat),
    fbRead (drawRows x0 y rows c).fb px py
      = (fbRead c.fb px py ^^ decide (y ≤ py ∧ py < y + rows.length ∧ py ≤ 31 ∧ px ≤ 63 ∧ x0 ≤ px ∧ px < x0 + 8 ∧
          (rows.getD (py - y) 0).getLsbD (7 - (px - x0)) = true)) := by
  induction rows with
  | nil => intro y c px py; simp [drawRows]
  | cons row rows ih =>
    intro y c px py
    rw [drawRows, ih, fbRead_drawRow, Bool.xor_assoc]
    congr 1
    by_cases hy : py = y
    · subst hy
      have h1 : ¬ (py + 1 ≤ py) := by omega
      simp [h1]
    · have h1 : (y + 1 ≤ py) ↔ (y ≤ py) := by omega
      have h2 : (py < y + 1 + rows.length) ↔ (py < y + (row :: rows).length) := by simp; omega
      by_cases hle : y ≤ py
      · have h3 : py - y = (py - (y + 1)) + 1 := by omega
        simp only [hy, h1, h2, h3, List.getD_cons_succ, false_and, decide_false, Bool.false_xor]
      · simp [hy, hle, h1]

/-- The collision accumulator after a whole sprite (44_draw.md R214). -/
theorem collision_drawRows (x0 : Nat) (rows : List Byte) : ∀ (y : Nat) (c : Canvas),
    (drawRows x0 y rows c).collision = true
      ↔ c.collision = true ∨ ∃ j k, j < rows.length ∧ k < 8 ∧ x0 + k ≤ 63 ∧ y + j ≤ 31 ∧
          (rows.getD j 0).getLsbD (7 - k) = true ∧ fbRead c.fb (x0 + k) (y + j) = true := by
  induction rows with
  | nil => intro y c; simp [drawRows]
  | cons row rows ih =>
    intro y c
    have hread : ∀ j k, fbRead (drawRow x0 y row c).fb (x0 + k) (y + 1 + j) = fbRead c.fb (x0 + k) (y + 1 + j) := by
      intro j k
      rw [fbRead_drawRow]
      have : ¬ (y + 1 + j = y) := by omega
      simp [this]
    rw [drawRows, ih, collision_drawRow]
    constructor
    · rintro ((h | ⟨k, hk, hx, hy, hb, hr⟩) | ⟨j, k, hj, hk, hx, hy, hb, hr⟩)
      · exact .inl h
      · exact .inr ⟨0, k, by simp, hk, hx, hy, by simpa using hb, hr⟩
      · rw [hread] at hr
        refine .inr ⟨j + 1, k, by simpa using hj, hk, hx, by omega, by simpa using hb, ?_⟩
        rwa [show y + (j + 1) = y + 1 + j by omega]
    · rintro (h | ⟨j, k, hj, hk, hx, hy, hb, hr⟩)
      · exact .inl (.inl h)
      · cases j with
        | zero => exact .inl (.inr ⟨k, hk, hx, hy, by simpa using hb, hr⟩)
        | succ j =>
          refine .inr ⟨j, k, by simpa using hj, hk, hx, by omega, by simpa using hb, ?_⟩
          rw [hread]
          rwa [show y + 1 + j = y + (j + 1) by omega]

/-- Two framebuffers that agree on every pixel are equal. -/
theorem fb_ext (f g : Framebuffer) (h : ∀ x y, fbRead f x y = fbRead g x y) : f = g := by
  apply Vector.ext
  intro y hy
  apply BitVec.eq_of_getLsbD_eq
  intro x _
  have := h x y
  simpa [fbRead, Config.fbHeight, hy] using this

end Sys2Proof.Machine
end

