-- ==== Sys2Proof/Laws/Memory.lean ====
section
/-! SUPPORT. Main memory: a read after a write, that a write leaves every other address alone, and that every memory
operation keeps the canonical form. -/

namespace Sys2Proof.Machine

variable (m : Memory) (a b : Nat) (v : Byte)

@[simp] theorem Memory.read_nil : Memory.read [] a = unlistedByte := rfl

theorem Memory.read_erase_same : Memory.read (Memory.erase m a) a = unlistedByte := by
  induction m with
  | nil => rfl
  | cons c m ih =>
    simp only [Memory.erase, List.filter_cons]
    by_cases h : c.1 = a
    · simpa [h, Memory.erase] using ih
    · have : a ≠ c.1 := fun e => h e.symm
      simpa [h, this, Memory.read, Memory.erase] using ih

theorem Memory.read_erase_other (h : b ≠ a) : Memory.read (Memory.erase m a) b = Memory.read m b := by
  induction m with
  | nil => rfl
  | cons c m ih =>
    simp only [Memory.erase, List.filter_cons]
    by_cases hc : c.1 = a
    · have : b ≠ c.1 := by omega
      simpa [hc, this, h, Memory.read, Memory.erase] using ih
    · by_cases hb : b = c.1
      · subst hb; simp [hc, Memory.read]
      · simpa [hc, hb, Memory.read, Memory.erase] using ih

theorem Memory.read_insert (m : Memory) (hm : Memory.read m a = unlistedByte) (hfree : ∀ c ∈ m, c.1 ≠ a) :
    Memory.read (Memory.insert a v m) b = if b = a then v else Memory.read m b := by
  induction m with
  | nil => simp [Memory.insert, Memory.read]
  | cons c m ih =>
    have hc : c.1 ≠ a := hfree c (by simp)
    have hm' : Memory.read m a = unlistedByte := by
      have : a ≠ c.1 := fun e => hc e.symm
      simpa [Memory.read, this] using hm
    have ih' := ih hm' (fun d hd => hfree d (by simp [hd]))
    simp only [Memory.insert]
    split
    · simp [Memory.read]
    · simp only [Memory.read]
      by_cases hb : b = c.1
      · subst hb; simp [hc]
      · simp [hb, ih']

theorem Memory.erase_free : ∀ c ∈ Memory.erase m a, c.1 ≠ a := by
  intro c hc
  simp only [Memory.erase, List.mem_filter] at hc
  simpa using hc.2

/-- The law of memory: a write changes the one address it names. -/
theorem Memory.read_write : Memory.read (Memory.write m a v) b = if b = a then v else Memory.read m b := by
  unfold Memory.write
  split
  · next h =>
    by_cases hb : b = a
    · subst hb; simp [h, Memory.read_erase_same]
    · simp [hb, Memory.read_erase_other _ _ _ hb]
  · rw [Memory.read_insert _ _ _ _ (Memory.read_erase_same m a) (Memory.erase_free m a)]
    by_cases hb : b = a
    · simp [hb]
    · simp [hb, Memory.read_erase_other _ _ _ hb]

/-- A block write changes exactly the addresses of the block. -/
theorem Memory.read_writeBytes (bs : List Byte) : ∀ (m : Memory) (a b : Nat),
    Memory.read (Memory.writeBytes m a bs) b
      = if a ≤ b ∧ b < a + bs.length then bs.getD (b - a) 0 else Memory.read m b := by
  induction bs with
  | nil => intro m a b; simp [Memory.writeBytes]
  | cons v bs ih =>
    intro m a b
    simp only [Memory.writeBytes, ih, Memory.read_write, List.length_cons]
    by_cases h1 : a + 1 ≤ b ∧ b < a + 1 + bs.length
    · have h2 : a ≤ b ∧ b < a + (bs.length + 1) := by omega
      have h3 : b - a = (b - (a + 1)) + 1 := by omega
      simp only [h1, h2, and_self, ite_true, h3, List.getD_cons_succ]
    · rw [if_neg h1]
      by_cases h4 : b = a
      · subst h4; simp
      · rw [if_neg h4, if_neg (by omega)]

@[simp] theorem Memory.length_readBytes (m : Memory) : ∀ (n a : Nat), (Memory.readBytes m a n).length = n := by
  intro n
  induction n with
  | zero => intro a; rfl
  | succ n ih => intro a; simp [Memory.readBytes, ih]

/-- The `k`-th byte of a block read. -/
theorem Memory.getD_readBytes (m : Memory) : ∀ (n a k : Nat) (d : Byte),
    (Memory.readBytes m a n).getD k d = if k < n then Memory.read m (a + k) else d := by
  intro n
  induction n with
  | zero => intro a k d; simp [Memory.readBytes]
  | succ n ih =>
    intro a k d
    cases k with
    | zero => simp [Memory.readBytes]
    | succ k =>
      simp only [Memory.readBytes, List.getD_cons_succ, ih, Nat.add_lt_add_iff_right]
      rw [show a + 1 + k = a + (k + 1) by omega]

/-! ## The canonical form -/

theorem Memory.wf_erase (h : Memory.wf m) : Memory.wf (Memory.erase m a) :=
  ⟨h.1.filter _, fun c hc => h.2 c (List.mem_filter.mp hc).1⟩

theorem Memory.mem_insert (m : Memory) (c : Host.Cell) :
    c ∈ Memory.insert a v m ↔ c = (a, v) ∨ c ∈ m := by
  induction m with
  | nil => simp [Memory.insert]
  | cons d m ih =>
    simp only [Memory.insert]
    split
    · simp
    · simp only [List.mem_cons, ih]; tauto

theorem Memory.wf_insert (h : Memory.wf m) (hfree : ∀ c ∈ m, c.1 ≠ a) (ha : a < Config.memSize)
    (hv : v ≠ unlistedByte) : Memory.wf (Memory.insert a v m) := by
  refine ⟨?_, fun c hc => ?_⟩
  · have hp := h.1
    clear h
    induction m with
    | nil => simp [Memory.insert]
    | cons d m ih =>
      have hd := List.pairwise_cons.mp hp
      simp only [Memory.insert]
      split
      · next hlt =>
        refine List.pairwise_cons.mpr ⟨fun c hc => ?_, hp⟩
        rcases List.mem_cons.mp hc with rfl | hc
        · exact hlt
        · exact Nat.lt_trans hlt (hd.1 c hc)
      · next hlt =>
        refine List.pairwise_cons.mpr ⟨fun c hc => ?_, ih (fun c hc => hfree c (by simp [hc])) hd.2⟩
        rcases (Memory.mem_insert a v m c).mp hc with rfl | hc
        · have : d.1 ≠ a := hfree d (by simp)
          simp only; omega
        · exact hd.1 c hc
  · rcases (Memory.mem_insert a v m c).mp hc with rfl | hc
    · exact ⟨ha, hv⟩
    · exact h.2 c hc

/-- A write below 4096 keeps the canonical form. -/
theorem Memory.wf_write (h : Memory.wf m) (ha : a < Config.memSize) : Memory.wf (Memory.write m a v) := by
  unfold Memory.write
  split
  · exact Memory.wf_erase m a h
  · exact Memory.wf_insert _ _ _ (Memory.wf_erase m a h) (Memory.erase_free m a) ha (by assumption)

/-- A block write below 4096 keeps the canonical form. -/
theorem Memory.wf_writeBytes (bs : List Byte) : ∀ (m : Memory) (a : Nat), Memory.wf m →
    a + bs.length ≤ Config.memSize → Memory.wf (Memory.writeBytes m a bs) := by
  induction bs with
  | nil => intro m a h _; exact h
  | cons b bs ih =>
    intro m a h hl
    simp only [List.length_cons] at hl
    exact ih _ _ (Memory.wf_write m a b h (by simp only [Config.memSize] at *; omega)) (by omega)

/-! ## Whole transfers -/

theorem outOfBounds_eq_false {a n : Nat} (h : n = 0 ∨ a + n ≤ 4096) : outOfBounds a n = false := by
  simp only [outOfBounds, decide_eq_false_iff_not, Config.memSize]; omega

theorem outOfBounds_eq_true {a n : Nat} (h : 0 < n) (h' : 4096 < a + n) : outOfBounds a n = true := by
  simp only [outOfBounds, decide_eq_true_eq, Config.memSize]; omega

theorem loadBlock_inBounds {a n : Nat} (h : n = 0 ∨ a + n ≤ 4096) :
    loadBlock m a n = some (Memory.readBytes m a n) := by
  simp [loadBlock, outOfBounds_eq_false h]

theorem loadBlock_outOfBounds {a n : Nat} (h : 0 < n) (h' : 4096 < a + n) : loadBlock m a n = none := by
  simp [loadBlock, outOfBounds_eq_true h h']

theorem storeBlock_inBounds {a : Nat} {bs : List Byte} (h : bs.length = 0 ∨ a + bs.length ≤ 4096) :
    storeBlock m a bs = some (Memory.writeBytes m a bs) := by
  simp [storeBlock, outOfBounds_eq_false h]

theorem storeBlock_outOfBounds {a : Nat} {bs : List Byte} (h : 0 < bs.length) (h' : 4096 < a + bs.length) :
    storeBlock m a bs = none := by
  simp [storeBlock, outOfBounds_eq_true h h']

/-- All a store can do: when it answers a memory, the whole block lies below 4096 and is written. -/
theorem storeBlock_some {a : Nat} {bs : List Byte} {m' : Memory} (h : storeBlock m a bs = some m') :
    (bs.length = 0 ∨ a + bs.length ≤ 4096) ∧ m' = Memory.writeBytes m a bs := by
  unfold storeBlock at h
  split at h
  · simp at h
  · next hb =>
    simp only [outOfBounds, decide_eq_true_eq, Config.memSize] at hb
    refine ⟨?_, (Option.some.inj h).symm⟩
    omega

/-- A store keeps the canonical form. -/
theorem wf_storeBlock {a : Nat} {bs : List Byte} {m' : Memory} (hm : Memory.wf m)
    (h : storeBlock m a bs = some m') : Memory.wf m' := by
  obtain ⟨hb, rfl⟩ := storeBlock_some m h
  rcases hb with hb | hb
  · rw [List.length_eq_zero_iff.mp hb]; exact hm
  · exact Memory.wf_writeBytes bs m a hm hb

end Sys2Proof.Machine
end

