-- ==== Sys2Proof/Laws/State.lean ====
section
/-! SUPPORT. One lemma per field per setter of the state, so that no proof unfolds a record update. -/

namespace Sys2Proof.Machine

variable (s : State)

@[simp] theorem setV_V (x : Reg) (b : Byte) : (s.setV x b).V = s.V.set x b := rfl
@[simp] theorem setV_I (x : Reg) (b : Byte) : (s.setV x b).I = s.I := rfl
@[simp] theorem setV_pc (x : Reg) (b : Byte) : (s.setV x b).pc = s.pc := rfl
@[simp] theorem setV_stack (x : Reg) (b : Byte) : (s.setV x b).stack = s.stack := rfl
@[simp] theorem setV_sp (x : Reg) (b : Byte) : (s.setV x b).sp = s.sp := rfl
@[simp] theorem setV_dt (x : Reg) (b : Byte) : (s.setV x b).dt = s.dt := rfl
@[simp] theorem setV_st (x : Reg) (b : Byte) : (s.setV x b).st = s.st := rfl
@[simp] theorem setV_keys (x : Reg) (b : Byte) : (s.setV x b).keys = s.keys := rfl
@[simp] theorem setV_prevKeys (x : Reg) (b : Byte) : (s.setV x b).prevKeys = s.prevKeys := rfl
@[simp] theorem setV_runState (x : Reg) (b : Byte) : (s.setV x b).runState = s.runState := rfl
@[simp] theorem setV_fault (x : Reg) (b : Byte) : (s.setV x b).fault = s.fault := rfl
@[simp] theorem setV_mem (x : Reg) (b : Byte) : (s.setV x b).mem = s.mem := rfl
@[simp] theorem setV_fb (x : Reg) (b : Byte) : (s.setV x b).fb = s.fb := rfl
@[simp] theorem setV_draws (x : Reg) (b : Byte) : (s.setV x b).draws = s.draws := rfl

@[simp] theorem setI_V (a : Word) : (s.setI a).V = s.V := rfl
@[simp] theorem setI_I (a : Word) : (s.setI a).I = a := rfl
@[simp] theorem setI_pc (a : Word) : (s.setI a).pc = s.pc := rfl
@[simp] theorem setI_stack (a : Word) : (s.setI a).stack = s.stack := rfl
@[simp] theorem setI_sp (a : Word) : (s.setI a).sp = s.sp := rfl
@[simp] theorem setI_dt (a : Word) : (s.setI a).dt = s.dt := rfl
@[simp] theorem setI_st (a : Word) : (s.setI a).st = s.st := rfl
@[simp] theorem setI_keys (a : Word) : (s.setI a).keys = s.keys := rfl
@[simp] theorem setI_prevKeys (a : Word) : (s.setI a).prevKeys = s.prevKeys := rfl
@[simp] theorem setI_runState (a : Word) : (s.setI a).runState = s.runState := rfl
@[simp] theorem setI_fault (a : Word) : (s.setI a).fault = s.fault := rfl
@[simp] theorem setI_mem (a : Word) : (s.setI a).mem = s.mem := rfl
@[simp] theorem setI_fb (a : Word) : (s.setI a).fb = s.fb := rfl
@[simp] theorem setI_draws (a : Word) : (s.setI a).draws = s.draws := rfl

@[simp] theorem setPc_V (a : Word) : (s.setPc a).V = s.V := rfl
@[simp] theorem setPc_I (a : Word) : (s.setPc a).I = s.I := rfl
@[simp] theorem setPc_pc (a : Word) : (s.setPc a).pc = a := rfl
@[simp] theorem setPc_stack (a : Word) : (s.setPc a).stack = s.stack := rfl
@[simp] theorem setPc_sp (a : Word) : (s.setPc a).sp = s.sp := rfl
@[simp] theorem setPc_dt (a : Word) : (s.setPc a).dt = s.dt := rfl
@[simp] theorem setPc_st (a : Word) : (s.setPc a).st = s.st := rfl
@[simp] theorem setPc_keys (a : Word) : (s.setPc a).keys = s.keys := rfl
@[simp] theorem setPc_prevKeys (a : Word) : (s.setPc a).prevKeys = s.prevKeys := rfl
@[simp] theorem setPc_runState (a : Word) : (s.setPc a).runState = s.runState := rfl
@[simp] theorem setPc_fault (a : Word) : (s.setPc a).fault = s.fault := rfl
@[simp] theorem setPc_mem (a : Word) : (s.setPc a).mem = s.mem := rfl
@[simp] theorem setPc_fb (a : Word) : (s.setPc a).fb = s.fb := rfl
@[simp] theorem setPc_draws (a : Word) : (s.setPc a).draws = s.draws := rfl

@[simp] theorem setDt_V (b : Byte) : (s.setDt b).V = s.V := rfl
@[simp] theorem setDt_I (b : Byte) : (s.setDt b).I = s.I := rfl
@[simp] theorem setDt_pc (b : Byte) : (s.setDt b).pc = s.pc := rfl
@[simp] theorem setDt_stack (b : Byte) : (s.setDt b).stack = s.stack := rfl
@[simp] theorem setDt_sp (b : Byte) : (s.setDt b).sp = s.sp := rfl
@[simp] theorem setDt_dt (b : Byte) : (s.setDt b).dt = b := rfl
@[simp] theorem setDt_st (b : Byte) : (s.setDt b).st = s.st := rfl
@[simp] theorem setDt_keys (b : Byte) : (s.setDt b).keys = s.keys := rfl
@[simp] theorem setDt_prevKeys (b : Byte) : (s.setDt b).prevKeys = s.prevKeys := rfl
@[simp] theorem setDt_runState (b : Byte) : (s.setDt b).runState = s.runState := rfl
@[simp] theorem setDt_fault (b : Byte) : (s.setDt b).fault = s.fault := rfl
@[simp] theorem setDt_mem (b : Byte) : (s.setDt b).mem = s.mem := rfl
@[simp] theorem setDt_fb (b : Byte) : (s.setDt b).fb = s.fb := rfl
@[simp] theorem setDt_draws (b : Byte) : (s.setDt b).draws = s.draws := rfl

@[simp] theorem setSt_V (b : Byte) : (s.setSt b).V = s.V := rfl
@[simp] theorem setSt_I (b : Byte) : (s.setSt b).I = s.I := rfl
@[simp] theorem setSt_pc (b : Byte) : (s.setSt b).pc = s.pc := rfl
@[simp] theorem setSt_stack (b : Byte) : (s.setSt b).stack = s.stack := rfl
@[simp] theorem setSt_sp (b : Byte) : (s.setSt b).sp = s.sp := rfl
@[simp] theorem setSt_dt (b : Byte) : (s.setSt b).dt = s.dt := rfl
@[simp] theorem setSt_st (b : Byte) : (s.setSt b).st = b := rfl
@[simp] theorem setSt_keys (b : Byte) : (s.setSt b).keys = s.keys := rfl
@[simp] theorem setSt_prevKeys (b : Byte) : (s.setSt b).prevKeys = s.prevKeys := rfl
@[simp] theorem setSt_runState (b : Byte) : (s.setSt b).runState = s.runState := rfl
@[simp] theorem setSt_fault (b : Byte) : (s.setSt b).fault = s.fault := rfl
@[simp] theorem setSt_mem (b : Byte) : (s.setSt b).mem = s.mem := rfl
@[simp] theorem setSt_fb (b : Byte) : (s.setSt b).fb = s.fb := rfl
@[simp] theorem setSt_draws (b : Byte) : (s.setSt b).draws = s.draws := rfl

@[simp] theorem setKeys_V (k : Vector Bool 16) : (s.setKeys k).V = s.V := rfl
@[simp] theorem setKeys_I (k : Vector Bool 16) : (s.setKeys k).I = s.I := rfl
@[simp] theorem setKeys_pc (k : Vector Bool 16) : (s.setKeys k).pc = s.pc := rfl
@[simp] theorem setKeys_stack (k : Vector Bool 16) : (s.setKeys k).stack = s.stack := rfl
@[simp] theorem setKeys_sp (k : Vector Bool 16) : (s.setKeys k).sp = s.sp := rfl
@[simp] theorem setKeys_dt (k : Vector Bool 16) : (s.setKeys k).dt = s.dt := rfl
@[simp] theorem setKeys_st (k : Vector Bool 16) : (s.setKeys k).st = s.st := rfl
@[simp] theorem setKeys_keys (k : Vector Bool 16) : (s.setKeys k).keys = k := rfl
@[simp] theorem setKeys_prevKeys (k : Vector Bool 16) : (s.setKeys k).prevKeys = s.prevKeys := rfl
@[simp] theorem setKeys_runState (k : Vector Bool 16) : (s.setKeys k).runState = s.runState := rfl
@[simp] theorem setKeys_fault (k : Vector Bool 16) : (s.setKeys k).fault = s.fault := rfl
@[simp] theorem setKeys_mem (k : Vector Bool 16) : (s.setKeys k).mem = s.mem := rfl
@[simp] theorem setKeys_fb (k : Vector Bool 16) : (s.setKeys k).fb = s.fb := rfl
@[simp] theorem setKeys_draws (k : Vector Bool 16) : (s.setKeys k).draws = s.draws := rfl

@[simp] theorem setPrevKeys_V (k : Vector Bool 16) : (s.setPrevKeys k).V = s.V := rfl
@[simp] theorem setPrevKeys_I (k : Vector Bool 16) : (s.setPrevKeys k).I = s.I := rfl
@[simp] theorem setPrevKeys_pc (k : Vector Bool 16) : (s.setPrevKeys k).pc = s.pc := rfl
@[simp] theorem setPrevKeys_stack (k : Vector Bool 16) : (s.setPrevKeys k).stack = s.stack := rfl
@[simp] theorem setPrevKeys_sp (k : Vector Bool 16) : (s.setPrevKeys k).sp = s.sp := rfl
@[simp] theorem setPrevKeys_dt (k : Vector Bool 16) : (s.setPrevKeys k).dt = s.dt := rfl
@[simp] theorem setPrevKeys_st (k : Vector Bool 16) : (s.setPrevKeys k).st = s.st := rfl
@[simp] theorem setPrevKeys_keys (k : Vector Bool 16) : (s.setPrevKeys k).keys = s.keys := rfl
@[simp] theorem setPrevKeys_prevKeys (k : Vector Bool 16) : (s.setPrevKeys k).prevKeys = k := rfl
@[simp] theorem setPrevKeys_runState (k : Vector Bool 16) : (s.setPrevKeys k).runState = s.runState := rfl
@[simp] theorem setPrevKeys_fault (k : Vector Bool 16) : (s.setPrevKeys k).fault = s.fault := rfl
@[simp] theorem setPrevKeys_mem (k : Vector Bool 16) : (s.setPrevKeys k).mem = s.mem := rfl
@[simp] theorem setPrevKeys_fb (k : Vector Bool 16) : (s.setPrevKeys k).fb = s.fb := rfl
@[simp] theorem setPrevKeys_draws (k : Vector Bool 16) : (s.setPrevKeys k).draws = s.draws := rfl

@[simp] theorem setRunState_V (r : RunState) : (s.setRunState r).V = s.V := rfl
@[simp] theorem setRunState_I (r : RunState) : (s.setRunState r).I = s.I := rfl
@[simp] theorem setRunState_pc (r : RunState) : (s.setRunState r).pc = s.pc := rfl
@[simp] theorem setRunState_stack (r : RunState) : (s.setRunState r).stack = s.stack := rfl
@[simp] theorem setRunState_sp (r : RunState) : (s.setRunState r).sp = s.sp := rfl
@[simp] theorem setRunState_dt (r : RunState) : (s.setRunState r).dt = s.dt := rfl
@[simp] theorem setRunState_st (r : RunState) : (s.setRunState r).st = s.st := rfl
@[simp] theorem setRunState_keys (r : RunState) : (s.setRunState r).keys = s.keys := rfl
@[simp] theorem setRunState_prevKeys (r : RunState) : (s.setRunState r).prevKeys = s.prevKeys := rfl
@[simp] theorem setRunState_runState (r : RunState) : (s.setRunState r).runState = r := rfl
@[simp] theorem setRunState_fault (r : RunState) : (s.setRunState r).fault = s.fault := rfl
@[simp] theorem setRunState_mem (r : RunState) : (s.setRunState r).mem = s.mem := rfl
@[simp] theorem setRunState_fb (r : RunState) : (s.setRunState r).fb = s.fb := rfl
@[simp] theorem setRunState_draws (r : RunState) : (s.setRunState r).draws = s.draws := rfl

@[simp] theorem setFault_V (r : FaultRecord) : (s.setFault r).V = s.V := rfl
@[simp] theorem setFault_I (r : FaultRecord) : (s.setFault r).I = s.I := rfl
@[simp] theorem setFault_pc (r : FaultRecord) : (s.setFault r).pc = s.pc := rfl
@[simp] theorem setFault_stack (r : FaultRecord) : (s.setFault r).stack = s.stack := rfl
@[simp] theorem setFault_sp (r : FaultRecord) : (s.setFault r).sp = s.sp := rfl
@[simp] theorem setFault_dt (r : FaultRecord) : (s.setFault r).dt = s.dt := rfl
@[simp] theorem setFault_st (r : FaultRecord) : (s.setFault r).st = s.st := rfl
@[simp] theorem setFault_keys (r : FaultRecord) : (s.setFault r).keys = s.keys := rfl
@[simp] theorem setFault_prevKeys (r : FaultRecord) : (s.setFault r).prevKeys = s.prevKeys := rfl
@[simp] theorem setFault_runState (r : FaultRecord) : (s.setFault r).runState = s.runState := rfl
@[simp] theorem setFault_fault (r : FaultRecord) : (s.setFault r).fault = some r := rfl
@[simp] theorem setFault_mem (r : FaultRecord) : (s.setFault r).mem = s.mem := rfl
@[simp] theorem setFault_fb (r : FaultRecord) : (s.setFault r).fb = s.fb := rfl
@[simp] theorem setFault_draws (r : FaultRecord) : (s.setFault r).draws = s.draws := rfl

@[simp] theorem setMem_V (m : Memory) : (s.setMem m).V = s.V := rfl
@[simp] theorem setMem_I (m : Memory) : (s.setMem m).I = s.I := rfl
@[simp] theorem setMem_pc (m : Memory) : (s.setMem m).pc = s.pc := rfl
@[simp] theorem setMem_stack (m : Memory) : (s.setMem m).stack = s.stack := rfl
@[simp] theorem setMem_sp (m : Memory) : (s.setMem m).sp = s.sp := rfl
@[simp] theorem setMem_dt (m : Memory) : (s.setMem m).dt = s.dt := rfl
@[simp] theorem setMem_st (m : Memory) : (s.setMem m).st = s.st := rfl
@[simp] theorem setMem_keys (m : Memory) : (s.setMem m).keys = s.keys := rfl
@[simp] theorem setMem_prevKeys (m : Memory) : (s.setMem m).prevKeys = s.prevKeys := rfl
@[simp] theorem setMem_runState (m : Memory) : (s.setMem m).runState = s.runState := rfl
@[simp] theorem setMem_fault (m : Memory) : (s.setMem m).fault = s.fault := rfl
@[simp] theorem setMem_mem (m : Memory) : (s.setMem m).mem = m := rfl
@[simp] theorem setMem_fb (m : Memory) : (s.setMem m).fb = s.fb := rfl
@[simp] theorem setMem_draws (m : Memory) : (s.setMem m).draws = s.draws := rfl

@[simp] theorem setFb_V (f : Framebuffer) : (s.setFb f).V = s.V := rfl
@[simp] theorem setFb_I (f : Framebuffer) : (s.setFb f).I = s.I := rfl
@[simp] theorem setFb_pc (f : Framebuffer) : (s.setFb f).pc = s.pc := rfl
@[simp] theorem setFb_stack (f : Framebuffer) : (s.setFb f).stack = s.stack := rfl
@[simp] theorem setFb_sp (f : Framebuffer) : (s.setFb f).sp = s.sp := rfl
@[simp] theorem setFb_dt (f : Framebuffer) : (s.setFb f).dt = s.dt := rfl
@[simp] theorem setFb_st (f : Framebuffer) : (s.setFb f).st = s.st := rfl
@[simp] theorem setFb_keys (f : Framebuffer) : (s.setFb f).keys = s.keys := rfl
@[simp] theorem setFb_prevKeys (f : Framebuffer) : (s.setFb f).prevKeys = s.prevKeys := rfl
@[simp] theorem setFb_runState (f : Framebuffer) : (s.setFb f).runState = s.runState := rfl
@[simp] theorem setFb_fault (f : Framebuffer) : (s.setFb f).fault = s.fault := rfl
@[simp] theorem setFb_mem (f : Framebuffer) : (s.setFb f).mem = s.mem := rfl
@[simp] theorem setFb_fb (f : Framebuffer) : (s.setFb f).fb = f := rfl
@[simp] theorem setFb_draws (f : Framebuffer) : (s.setFb f).draws = s.draws := rfl

@[simp] theorem setStack_V (e : Vector Word Config.stackDepth) (n : Fin (Config.stackDepth + 1)) : (s.setStack e n).V = s.V := rfl
@[simp] theorem setStack_I (e : Vector Word Config.stackDepth) (n : Fin (Config.stackDepth + 1)) : (s.setStack e n).I = s.I := rfl
@[simp] theorem setStack_pc (e : Vector Word Config.stackDepth) (n : Fin (Config.stackDepth + 1)) : (s.setStack e n).pc = s.pc := rfl
@[simp] theorem setStack_stack (e : Vector Word Config.stackDepth) (n : Fin (Config.stackDepth + 1)) : (s.setStack e n).stack = e := rfl
@[simp] theorem setStack_sp (e : Vector Word Config.stackDepth) (n : Fin (Config.stackDepth + 1)) : (s.setStack e n).sp = n := rfl
@[simp] theorem setStack_dt (e : Vector Word Config.stackDepth) (n : Fin (Config.stackDepth + 1)) : (s.setStack e n).dt = s.dt := rfl
@[simp] theorem setStack_st (e : Vector Word Config.stackDepth) (n : Fin (Config.stackDepth + 1)) : (s.setStack e n).st = s.st := rfl
@[simp] theorem setStack_keys (e : Vector Word Config.stackDepth) (n : Fin (Config.stackDepth + 1)) : (s.setStack e n).keys = s.keys := rfl
@[simp] theorem setStack_prevKeys (e : Vector Word Config.stackDepth) (n : Fin (Config.stackDepth + 1)) : (s.setStack e n).prevKeys = s.prevKeys := rfl
@[simp] theorem setStack_runState (e : Vector Word Config.stackDepth) (n : Fin (Config.stackDepth + 1)) : (s.setStack e n).runState = s.runState := rfl
@[simp] theorem setStack_fault (e : Vector Word Config.stackDepth) (n : Fin (Config.stackDepth + 1)) : (s.setStack e n).fault = s.fault := rfl
@[simp] theorem setStack_mem (e : Vector Word Config.stackDepth) (n : Fin (Config.stackDepth + 1)) : (s.setStack e n).mem = s.mem := rfl
@[simp] theorem setStack_fb (e : Vector Word Config.stackDepth) (n : Fin (Config.stackDepth + 1)) : (s.setStack e n).fb = s.fb := rfl
@[simp] theorem setStack_draws (e : Vector Word Config.stackDepth) (n : Fin (Config.stackDepth + 1)) : (s.setStack e n).draws = s.draws := rfl

@[simp] theorem consumeDraw_V : s.consumeDraw.V = s.V := rfl
@[simp] theorem consumeDraw_I : s.consumeDraw.I = s.I := rfl
@[simp] theorem consumeDraw_pc : s.consumeDraw.pc = s.pc := rfl
@[simp] theorem consumeDraw_stack : s.consumeDraw.stack = s.stack := rfl
@[simp] theorem consumeDraw_sp : s.consumeDraw.sp = s.sp := rfl
@[simp] theorem consumeDraw_dt : s.consumeDraw.dt = s.dt := rfl
@[simp] theorem consumeDraw_st : s.consumeDraw.st = s.st := rfl
@[simp] theorem consumeDraw_keys : s.consumeDraw.keys = s.keys := rfl
@[simp] theorem consumeDraw_prevKeys : s.consumeDraw.prevKeys = s.prevKeys := rfl
@[simp] theorem consumeDraw_runState : s.consumeDraw.runState = s.runState := rfl
@[simp] theorem consumeDraw_fault : s.consumeDraw.fault = s.fault := rfl
@[simp] theorem consumeDraw_mem : s.consumeDraw.mem = s.mem := rfl
@[simp] theorem consumeDraw_fb : s.consumeDraw.fb = s.fb := rfl
@[simp] theorem consumeDraw_draws : s.consumeDraw.draws = s.draws + 1 := rfl

@[simp] theorem setRegs_V (bs : List Byte) : (s.setRegs bs).V = Vector.ofFn fun r => bs.getD r.val s.V[r] := by simp only [State.setRegs]
@[simp] theorem setRegs_I (bs : List Byte) : (s.setRegs bs).I = s.I := by simp only [State.setRegs]
@[simp] theorem setRegs_pc (bs : List Byte) : (s.setRegs bs).pc = s.pc := by simp only [State.setRegs]
@[simp] theorem setRegs_stack (bs : List Byte) : (s.setRegs bs).stack = s.stack := by simp only [State.setRegs]
@[simp] theorem setRegs_sp (bs : List Byte) : (s.setRegs bs).sp = s.sp := by simp only [State.setRegs]
@[simp] theorem setRegs_dt (bs : List Byte) : (s.setRegs bs).dt = s.dt := by simp only [State.setRegs]
@[simp] theorem setRegs_st (bs : List Byte) : (s.setRegs bs).st = s.st := by simp only [State.setRegs]
@[simp] theorem setRegs_keys (bs : List Byte) : (s.setRegs bs).keys = s.keys := by simp only [State.setRegs]
@[simp] theorem setRegs_prevKeys (bs : List Byte) : (s.setRegs bs).prevKeys = s.prevKeys := by simp only [State.setRegs]
@[simp] theorem setRegs_runState (bs : List Byte) : (s.setRegs bs).runState = s.runState := by simp only [State.setRegs]
@[simp] theorem setRegs_fault (bs : List Byte) : (s.setRegs bs).fault = s.fault := by simp only [State.setRegs]
@[simp] theorem setRegs_mem (bs : List Byte) : (s.setRegs bs).mem = s.mem := by simp only [State.setRegs]
@[simp] theorem setRegs_fb (bs : List Byte) : (s.setRegs bs).fb = s.fb := by simp only [State.setRegs]
@[simp] theorem setRegs_draws (bs : List Byte) : (s.setRegs bs).draws = s.draws := by simp only [State.setRegs]

@[simp] theorem advance_V : (advance s).V = s.V := rfl
@[simp] theorem advance_I : (advance s).I = s.I := rfl
@[simp] theorem advance_pc : (advance s).pc = npc s := rfl
@[simp] theorem advance_stack : (advance s).stack = s.stack := rfl
@[simp] theorem advance_sp : (advance s).sp = s.sp := rfl
@[simp] theorem advance_dt : (advance s).dt = s.dt := rfl
@[simp] theorem advance_st : (advance s).st = s.st := rfl
@[simp] theorem advance_keys : (advance s).keys = s.keys := rfl
@[simp] theorem advance_prevKeys : (advance s).prevKeys = s.prevKeys := rfl
@[simp] theorem advance_runState : (advance s).runState = s.runState := rfl
@[simp] theorem advance_fault : (advance s).fault = s.fault := rfl
@[simp] theorem advance_mem : (advance s).mem = s.mem := rfl
@[simp] theorem advance_fb : (advance s).fb = s.fb := rfl
@[simp] theorem advance_draws : (advance s).draws = s.draws := rfl

@[simp] theorem skipIf_V (c : Bool) : (skipIf c s).V = s.V := rfl
@[simp] theorem skipIf_I (c : Bool) : (skipIf c s).I = s.I := rfl
@[simp] theorem skipIf_pc (c : Bool) : (skipIf c s).pc = if c then npc s + 2#16 else npc s := rfl
@[simp] theorem skipIf_stack (c : Bool) : (skipIf c s).stack = s.stack := rfl
@[simp] theorem skipIf_sp (c : Bool) : (skipIf c s).sp = s.sp := rfl
@[simp] theorem skipIf_dt (c : Bool) : (skipIf c s).dt = s.dt := rfl
@[simp] theorem skipIf_st (c : Bool) : (skipIf c s).st = s.st := rfl
@[simp] theorem skipIf_keys (c : Bool) : (skipIf c s).keys = s.keys := rfl
@[simp] theorem skipIf_prevKeys (c : Bool) : (skipIf c s).prevKeys = s.prevKeys := rfl
@[simp] theorem skipIf_runState (c : Bool) : (skipIf c s).runState = s.runState := rfl
@[simp] theorem skipIf_fault (c : Bool) : (skipIf c s).fault = s.fault := rfl
@[simp] theorem skipIf_mem (c : Bool) : (skipIf c s).mem = s.mem := rfl
@[simp] theorem skipIf_fb (c : Bool) : (skipIf c s).fb = s.fb := rfl
@[simp] theorem skipIf_draws (c : Bool) : (skipIf c s).draws = s.draws := rfl

@[simp] theorem writeResultThenFlag_V (x : Reg) (b : Byte) (c : Bool) :
    (writeResultThenFlag x b c s).V = (s.V.set x b).set flagReg (flagByte c) := rfl
@[simp] theorem writeResultThenFlag_I (x : Reg) (b : Byte) (c : Bool) :
    (writeResultThenFlag x b c s).I = s.I := rfl
@[simp] theorem writeResultThenFlag_pc (x : Reg) (b : Byte) (c : Bool) :
    (writeResultThenFlag x b c s).pc = s.pc := rfl
@[simp] theorem writeResultThenFlag_stack (x : Reg) (b : Byte) (c : Bool) :
    (writeResultThenFlag x b c s).stack = s.stack := rfl
@[simp] theorem writeResultThenFlag_sp (x : Reg) (b : Byte) (c : Bool) :
    (writeResultThenFlag x b c s).sp = s.sp := rfl
@[simp] theorem writeResultThenFlag_dt (x : Reg) (b : Byte) (c : Bool) :
    (writeResultThenFlag x b c s).dt = s.dt := rfl
@[simp] theorem writeResultThenFlag_st (x : Reg) (b : Byte) (c : Bool) :
    (writeResultThenFlag x b c s).st = s.st := rfl
@[simp] theorem writeResultThenFlag_keys (x : Reg) (b : Byte) (c : Bool) :
    (writeResultThenFlag x b c s).keys = s.keys := rfl
@[simp] theorem writeResultThenFlag_prevKeys (x : Reg) (b : Byte) (c : Bool) :
    (writeResultThenFlag x b c s).prevKeys = s.prevKeys := rfl
@[simp] theorem writeResultThenFlag_runState (x : Reg) (b : Byte) (c : Bool) :
    (writeResultThenFlag x b c s).runState = s.runState := rfl
@[simp] theorem writeResultThenFlag_fault (x : Reg) (b : Byte) (c : Bool) :
    (writeResultThenFlag x b c s).fault = s.fault := rfl
@[simp] theorem writeResultThenFlag_mem (x : Reg) (b : Byte) (c : Bool) :
    (writeResultThenFlag x b c s).mem = s.mem := rfl
@[simp] theorem writeResultThenFlag_fb (x : Reg) (b : Byte) (c : Bool) :
    (writeResultThenFlag x b c s).fb = s.fb := rfl
@[simp] theorem writeResultThenFlag_draws (x : Reg) (b : Byte) (c : Bool) :
    (writeResultThenFlag x b c s).draws = s.draws := rfl

end Sys2Proof.Machine
end

