-- ==== Sys2Proof/Laws/Ops.lean ====
section
/-! SUPPORT. One lemma per shared operation, saying all it can do. -/

namespace Sys2Proof.Machine

variable (s : State)

/-! ## Registers -/

/-- A register after a register write. -/
theorem setV_get (x : Reg) (b : Byte) (r : Reg) : (s.setV x b).V[r] = if r = x then b else s.V[r] := by
  simp only [setV_V, Fin.getElem_fin, Vector.getElem_set, Fin.ext_iff]
  by_cases h : x.val = r.val
  · simp [h]
  · simp [h, Ne.symm h]

/-- A register after a result and its flag: the flag wins in `V[15]`. -/
theorem writeResultThenFlag_get (x : Reg) (b : Byte) (c : Bool) (r : Reg) :
    (writeResultThenFlag x b c s).V[r] = if r = 15 then flagByte c else if r = x then b else s.V[r] := by
  unfold writeResultThenFlag
  rw [setV_get, setV_get]

/-- A register after the register file is loaded from a block. -/
theorem setRegs_get (bs : List Byte) (r : Reg) : (s.setRegs bs).V[r] = bs.getD r.val s.V[r] := by
  simp

theorem length_regBlock (x : Reg) : (regBlock s x).length = x.val + 1 := by
  simp [regBlock]

/-- The `k`-th byte of the stored block is `V[k]`. -/
theorem getD_regBlock (x r : Reg) (h : r.val ≤ x.val) (d : Byte) : (regBlock s x).getD r.val d = s.V[r] := by
  have h2 : r.val < x.val + 1 := by omega
  have := r.isLt
  simp [regBlock, List.getD_eq_getElem?_getD, h2]

/-! ## The call stack -/

theorem push_of_lt (v : Word) (h : s.sp.val < 16) : push s v =
    some (s.setStack (s.stack.set s.sp.val v h) ⟨s.sp.val + 1, Nat.succ_lt_succ h⟩) := by
  simp [push, h]

theorem push_full (v : Word) (h : s.sp.val = 16) : push s v = none := by simp [push, h]

theorem pop_of_pos (h : 0 < s.sp.val) : pop s =
    some (s.stack[s.sp.val - 1]'(by have := s.sp.isLt; omega),
      s.setStack s.stack ⟨s.sp.val - 1, by have := s.sp.isLt; omega⟩) := by
  simp [pop, h]

theorem pop_empty (h : s.sp.val = 0) : pop s = none := by simp [pop, h]

/-! ## Fetch -/

theorem fetch_inBounds (h : s.pc.toNat ≤ 4094) :
    fetch s = some (wordOfBytes (Memory.read s.mem s.pc.toNat) (Memory.read s.mem (s.pc.toNat + 1))) := by
  simp [fetch, loadBlock_inBounds s.mem (a := s.pc.toNat) (n := 2) (by omega), Memory.readBytes]

theorem fetch_outOfBounds (h : 4094 < s.pc.toNat) : fetch s = none := by
  simp [fetch, loadBlock_outOfBounds s.mem (a := s.pc.toNat) (n := 2) (by omega) (by omega)]

/-- A fetch that answers a word read it from `pc` and `pc + 1`, both in memory. -/
theorem fetch_some {w : Word} (h : fetch s = some w) : s.pc.toNat ≤ 4094 ∧
    w = wordOfBytes (Memory.read s.mem s.pc.toNat) (Memory.read s.mem (s.pc.toNat + 1)) := by
  by_cases hp : s.pc.toNat ≤ 4094
  · rw [fetch_inBounds s hp] at h
    exact ⟨hp, (Option.some.inj h).symm⟩
  · rw [fetch_outOfBounds s (by omega)] at h
    cases h

/-- The fetch sees nothing of the state but `pc` and memory. -/
theorem fetch_congr {s t : State} (hpc : t.pc = s.pc) (hmem : t.mem = s.mem) : fetch t = fetch s := by
  simp [fetch, hpc, hmem]

/-- A word stored where the step fetches is the word it fetches. -/
theorem fetch_storeWordAtPc (w : Word) (h : s.pc.toNat ≤ 4094) : fetch (storeWordAtPc s w) = some w := by
  have hs : storeBlock s.mem s.pc.toNat (wordBytes w) = some (Memory.writeBytes s.mem s.pc.toNat (wordBytes w)) :=
    storeBlock_inBounds _ (by simp [wordBytes]; omega)
  simp only [storeWordAtPc, hs]
  rw [fetch_inBounds _ (by simpa using h)]
  simp only [setMem_pc, setMem_mem, Memory.read_writeBytes]
  simp [wordBytes, wordOfBytes_wordBytes]

theorem npc_toNat (h : s.pc.toNat ≤ 4094) : (npc s).toNat = s.pc.toNat + 2 := by
  simp only [npc, BitVec.toNat_add, BitVec.toNat_ofNat]; omega

/-! ## Keys -/

theorem keyState_of_lt (k : Byte) (h : k.toNat < 16) : keyState s k = some (s.keys[k.toNat]'h) := by
  simp [keyState, h]

theorem keyState_of_ge (k : Byte) (h : 15 < k.toNat) : keyState s k = none := by
  simp [keyState]; omega

theorem firstPressed_none (keys : Vector Bool 16) : firstPressed keys = none ↔ ∀ k : Reg, keys[k] = false := by
  simp [firstPressed, List.find?_eq_none]

/-- The priority encoder: the key taken is pressed and every lower key is released. -/
theorem firstPressed_some {keys : Vector Bool 16} {k : Reg} (h : firstPressed keys = some k) :
    keys[k] = true ∧ ∀ j : Reg, j < k → keys[j] = false := by
  rw [firstPressed, List.find?_eq_some_iff_getElem] at h
  obtain ⟨hk, i, hi, hik, hlow⟩ := h
  refine ⟨by simpa using hk, fun j hj => ?_⟩
  have hi' : k.val = i := by
    have := congrArg Fin.val hik
    simpa using this.symm
  have hj' : j.val < k.val := hj
  have := hlow j.val (by omega)
  simpa using this

/-! ## Steps -/

theorem step_halted (r : FaultRecord) (h : s.fault = some r) : step s = .next s := by
  simp [step, halted, h]

theorem step_fetch_none (h : s.fault = none) (hf : fetch s = none) : step s = raiseFetch s := by
  simp [step, halted, h, hf]

theorem step_instr {w : Word} {i : Instr} (h : s.fault = none) (hf : fetch s = some w)
    (hd : decode w = .instr i) : step s = exec i s := by
  simp [step, halted, h, hf, hd]

theorem step_unknown {w u : Word} (h : s.fault = none) (hf : fetch s = some w)
    (hd : decode w = .unknownOpcode u) : step s = .next (advance s) := by
  simp [step, halted, h, hf, hd, execUnknown]

theorem decode_ne_truncated (w : Word) : decode w ≠ .truncated := by
  unfold decode decodeFamily0 decodeFamily8 decodeFamilyE decodeFamilyF
  split <;> (try split) <;> (try split) <;> simp

/-- All a step can do: stay halted, latch a fetch fault, pass over an unknown opcode, or run one instruction. -/
theorem step_cases : (∃ r, s.fault = some r ∧ step s = .next s) ∨
    (s.fault = none ∧ fetch s = none ∧ step s = raiseFetch s) ∨
    (s.fault = none ∧ (∃ w u, fetch s = some w ∧ decode w = .unknownOpcode u) ∧ step s = .next (advance s)) ∨
    (s.fault = none ∧ ∃ w i, fetch s = some w ∧ decode w = .instr i ∧ step s = exec i s) := by
  cases hf : s.fault with
  | some r => exact .inl ⟨r, rfl, step_halted s r hf⟩
  | none =>
    right
    cases hw : fetch s with
    | none => exact .inl ⟨rfl, rfl, step_fetch_none s hf hw⟩
    | some w =>
      right
      cases hd : decode w with
      | instr i => exact .inr ⟨rfl, w, i, rfl, hd, step_instr s hf hw hd⟩
      | unknownOpcode u => exact .inl ⟨rfl, ⟨w, u, rfl, hd⟩, step_unknown s hf hw hd⟩
      | truncated => exact absurd hd (decode_ne_truncated w)

end Sys2Proof.Machine
end

