-- ==== Sys2Proof/Laws/Exec.lean ====
section
/-! SUPPORT. The instructions that have more than one outcome, one equation per outcome, so that no proof unfolds a
meaning: a transfer in bounds and out of bounds, a stack with and without room, a key that exists and one that does not. -/

namespace Sys2Proof.Machine

variable (s : State)

theorem exec_ret_held (h : 0 < s.sp.val) : exec .ret s = .next
    ((s.setStack s.stack ⟨s.sp.val - 1, by have := s.sp.isLt; omega⟩).setPc
      (s.stack[s.sp.val - 1]'(by have := s.sp.isLt; omega))) := by
  simp only [exec, execRet, pop_of_pos s h]

theorem exec_ret_empty (h : s.sp.val = 0) : exec .ret s = raise .stackUnderflow (encode .ret) 0 s := by
  simp only [exec, execRet, pop_empty s h]

theorem exec_call_room (nnn : Word) (h : s.sp.val < 16) : exec (.call nnn) s = .next
    ((s.setStack (s.stack.set s.sp.val (npc s) h) ⟨s.sp.val + 1, Nat.succ_lt_succ h⟩).setPc nnn) := by
  simp only [exec, execCall, push_of_lt s _ h]

theorem exec_call_full (nnn : Word) (h : s.sp.val = 16) :
    exec (.call nnn) s = raise .stackOverflow (encode (.call nnn)) (npc s).toNat s := by
  simp only [exec, execCall, push_full s _ h]

theorem exec_ldBcd_inBounds (x : Reg) (h : s.I.toNat + 2 ≤ 4095) : exec (.ldBcd x) s
    = .next (advance (s.setMem (Memory.writeBytes s.mem s.I.toNat (bcdDigits (readV s x))))) := by
  have hl : (bcdDigits (readV s x)).length = 3 := rfl
  simp only [exec, execLdBcd, storeAtIndex, indexBase,
    storeBlock_inBounds s.mem (a := s.I.toNat) (bs := bcdDigits (readV s x)) (by omega)]

theorem exec_ldBcd_outOfBounds (x : Reg) (h : 4095 < s.I.toNat + 2) :
    exec (.ldBcd x) s = raise .memWriteOutOfBounds (encode (.ldBcd x)) (s.I.toNat + 2) s := by
  have hl : (bcdDigits (readV s x)).length = 3 := rfl
  simp only [exec, execLdBcd, storeAtIndex, indexBase, lastAddress, hl,
    storeBlock_outOfBounds s.mem (a := s.I.toNat) (bs := bcdDigits (readV s x)) (by omega) (by omega)]
  rfl

theorem exec_storeRegs_inBounds (x : Reg) (h : s.I.toNat + x.val ≤ 4095) : exec (.storeRegs x) s
    = .next (advance (s.setMem (Memory.writeBytes s.mem s.I.toNat (regBlock s x)))) := by
  have hl := length_regBlock s x
  simp only [exec, execStoreRegs, storeAtIndex, indexBase,
    storeBlock_inBounds s.mem (a := s.I.toNat) (bs := regBlock s x) (by omega)]

theorem exec_storeRegs_outOfBounds (x : Reg) (h : 4095 < s.I.toNat + x.val) :
    exec (.storeRegs x) s = raise .memWriteOutOfBounds (encode (.storeRegs x)) (s.I.toNat + x.val) s := by
  have hl := length_regBlock s x
  simp only [exec, execStoreRegs, storeAtIndex, indexBase, lastAddress, hl,
    storeBlock_outOfBounds s.mem (a := s.I.toNat) (bs := regBlock s x) (by omega) (by omega)]
  rfl

theorem exec_loadRegs_inBounds (x : Reg) (h : s.I.toNat + x.val ≤ 4095) : exec (.loadRegs x) s
    = .next (advance (s.setRegs (Memory.readBytes s.mem s.I.toNat (x.val + 1)))) := by
  simp only [exec, execLoadRegs, indexBase,
    loadBlock_inBounds s.mem (a := s.I.toNat) (n := x.val + 1) (by omega)]

theorem exec_loadRegs_outOfBounds (x : Reg) (h : 4095 < s.I.toNat + x.val) :
    exec (.loadRegs x) s = raise .memReadOutOfBounds (encode (.loadRegs x)) (s.I.toNat + x.val) s := by
  simp only [exec, execLoadRegs, indexBase, lastAddress,
    loadBlock_outOfBounds s.mem (a := s.I.toNat) (n := x.val + 1) (by omega) (by omega)]
  rfl

theorem exec_drw_inBounds (x y : Reg) (n : Nat) (h : n = 0 ∨ s.I.toNat + n - 1 ≤ 4095) : exec (.drw x y n) s
    = .next (advance ((s.setFb
        (drawRows (originX s x) (originY s y) (Memory.readBytes s.mem s.I.toNat n) ⟨s.fb, false⟩).fb).setV flagReg
        (flagByte
          (drawRows (originX s x) (originY s y) (Memory.readBytes s.mem s.I.toNat n) ⟨s.fb, false⟩).collision))) := by
  simp only [exec, execDrw, indexBase, loadBlock_inBounds s.mem (a := s.I.toNat) (n := n) (by omega)]

theorem exec_drw_outOfBounds (x y : Reg) (n : Nat) (h : 0 < n ∧ 4095 < s.I.toNat + n - 1) :
    exec (.drw x y n) s = raise .memReadOutOfBounds (encode (.drw x y n)) (s.I.toNat + n - 1) s := by
  simp only [exec, execDrw, indexBase, lastAddress,
    loadBlock_outOfBounds s.mem h.1 (show 4096 < s.I.toNat + n by omega)]

theorem exec_skp_key (x : Reg) (h : s.V[x].toNat < 16) :
    exec (.skp x) s = .next (skipIf (s.keys[s.V[x].toNat] == true) s) := by
  simp only [exec, execSkp, skipOnKey, readV, keyState_of_lt s s.V[x] h]

theorem exec_skp_noKey (x : Reg) (h : 15 < s.V[x].toNat) :
    exec (.skp x) s = raise .keyIndexOutOfRange (encode (.skp x)) s.V[x].toNat s := by
  simp only [exec, execSkp, skipOnKey, readV, keyState_of_ge s s.V[x] h]

theorem exec_sknp_key (x : Reg) (h : s.V[x].toNat < 16) :
    exec (.sknp x) s = .next (skipIf (s.keys[s.V[x].toNat] == false) s) := by
  simp only [exec, execSknp, skipOnKey, readV, keyState_of_lt s s.V[x] h]

theorem exec_sknp_noKey (x : Reg) (h : 15 < s.V[x].toNat) :
    exec (.sknp x) s = raise .keyIndexOutOfRange (encode (.sknp x)) s.V[x].toNat s := by
  simp only [exec, execSknp, skipOnKey, readV, keyState_of_ge s s.V[x] h]

theorem exec_ldVxKey_wait (x : Reg) (h : firstPressed s.keys = none) :
    exec (.ldVxKey x) s = .next (s.setRunState .waitingForKey) := by
  simp only [exec, execLdVxKey, h]

theorem exec_ldVxKey_take (x k : Reg) (h : firstPressed s.keys = some k) : exec (.ldVxKey x) s
    = .next (advance (((s.setV x (BitVec.ofNat 8 k.val)).setKeys (s.keys.set k false)).setRunState .running)) := by
  simp only [exec, execLdVxKey, h]

/-- A raised fault changes the latch and nothing else. -/
theorem raise_frame (r : FaultRecord) : UnchangedBut [.fault] s (s.setFault r) := by
  intro p hp
  cases p <;> simp_all [samePart]

/-- The key selected is the lowest pressed one, whenever there is one. -/
theorem firstPressed_of_lowest {keys : Vector Bool 16} {k : Reg} (h : keys[k] = true)
    (hlow : ∀ j : Reg, j < k → keys[j] = false) : firstPressed keys = some k := by
  cases hp : firstPressed keys with
  | none => rw [(firstPressed_none keys).mp hp k] at h; cases h
  | some j =>
    obtain ⟨hj, hj'⟩ := firstPressed_some hp
    rcases lt_trichotomy j k with hlt | rfl | hgt
    · rw [hlow j hlt] at hj; cases hj
    · rfl
    · rw [hj' k hgt] at h; cases h

end Sys2Proof.Machine
end

