-- ==== Sys2Proof/Laws/Frames.lean ====
section
/-! SUPPORT. The frames of the few shapes a next state takes, the register a next state holds, and a sprite drawn on
the screen said through `spriteBit`. The claims cite these instead of unfolding a meaning. -/

namespace Sys2Proof.Machine

variable (s : State)

/-! ## The program counter -/

theorem npc_add_two : npc s + 2#16 = s.pc + 4#16 := by
  simp only [npc]; rw [BitVec.add_assoc]; rfl

theorem frame_setPc (a : Word) : UnchangedBut [.pc] s (s.setPc a) := by
  intro p hp; cases p <;> simp_all [samePart]

theorem frame_skipIf (c : Bool) : UnchangedBut [.pc] s (skipIf c s) := frame_setPc s _

/-! ## A register, a register and its flag -/

theorem get_advance_setV (x r : Reg) (b : Byte) : (advance (s.setV x b)).V[r] = if r = x then b else s.V[r] := by
  simpa using setV_get s x b r

theorem frame_advance_setV (x : Reg) (b : Byte) : UnchangedBut [.V x, .pc] s (advance (s.setV x b)) := by
  intro p hp
  cases p
  case V r =>
    have hr : r ≠ x := fun e => hp (by simp [e])
    have := get_advance_setV s x r b
    simpa [samePart, hr] using this
  case pc => simp at hp
  all_goals rfl

theorem flagByte_decide_toNat (P : Prop) [Decidable P] : (flagByte (decide P)).toNat = if P then 1 else 0 := by
  by_cases h : P <;> simp [flagByte, h]

theorem flagByte_zero_or_one (c : Bool) : flagByte c = 0#8 ∨ flagByte c = 1#8 := by cases c <;> decide

theorem get_advance_flag (x r : Reg) (b : Byte) (c : Bool) :
    (advance (writeResultThenFlag x b c s)).V[r] = if r = 15 then flagByte c else if r = x then b else s.V[r] := by
  simpa using writeResultThenFlag_get s x b c r

theorem frame_advance_flag (x : Reg) (b : Byte) (c : Bool) :
    UnchangedBut [.V x, .V 15, .pc] s (advance (writeResultThenFlag x b c s)) := by
  intro p hp
  cases p
  case V r =>
    have h1 : r ≠ x := fun e => hp (by simp [e])
    have h2 : r ≠ 15 := fun e => hp (by simp [e])
    have := get_advance_flag s x r b c
    simpa [samePart, h1, h2] using this
  case pc => simp at hp
  all_goals rfl

/-! ## A block of memory -/

theorem frame_advance_setMem (bs : List Byte) (n : Nat) (hn : bs.length = n) : UnchangedBut (.pc :: cells s.I.toNat n) s
    (advance (s.setMem (Memory.writeBytes s.mem s.I.toNat bs))) := by
  subst hn
  intro p hp
  cases p
  case mem a =>
    simp only [samePart, advance_mem, setMem_mem, Memory.read_writeBytes]
    rw [if_neg]
    rintro ⟨h1, h2⟩
    apply hp
    simp only [cells, List.mem_cons, List.mem_map, List.mem_range]
    exact .inr ⟨a - s.I.toNat, by omega, by rw [Nat.add_sub_cancel' h1]⟩
  case pc => simp at hp
  all_goals rfl

/-! ## A sprite on the screen -/

/-- What DXYN leaves of the framebuffer and of the collision accumulator. -/
abbrev drawn (x y : Reg) (n : Nat) : Canvas :=
  drawRows (originX s x) (originY s y) (Memory.readBytes s.mem s.I.toNat n) ⟨s.fb, false⟩

theorem fbRead_offScreen (f : Framebuffer) (x y : Nat) (h : ¬ (x < 64 ∧ y < 32)) : fbRead f x y = false := by
  unfold fbRead
  split
  · next hy =>
    have : ¬ x < 64 := fun q => h ⟨q, hy⟩
    exact BitVec.getLsbD_of_ge _ _ (by simp only [Config.fbWidth]; omega)
  · rfl

theorem spriteBit_eq (x y : Reg) (n px py : Nat) (hx : px < 64) (hy : py < 32) :
    (decide (originY s y ≤ py ∧ py < originY s y + (Memory.readBytes s.mem s.I.toNat n).length ∧ py ≤ 31 ∧ px ≤ 63 ∧
      originX s x ≤ px ∧ px < originX s x + 8 ∧
      ((Memory.readBytes s.mem s.I.toNat n).getD (py - originY s y) 0).getLsbD (7 - (px - originX s x)) = true))
    = spriteBit s x y n px py := by
  have h31 : py ≤ 31 := by omega
  have h63 : px ≤ 63 := by omega
  rw [Memory.length_readBytes, Memory.getD_readBytes]
  unfold spriteBit
  show decide _ = (decide (originX s x ≤ px ∧ px < originX s x + 8 ∧ originY s y ≤ py ∧ py < originY s y + n) &&
    (Memory.read s.mem (s.I.toNat + (py - originY s y))).getLsbD (7 - (px - originX s x)))
  by_cases h : originX s x ≤ px ∧ px < originX s x + 8 ∧ originY s y ≤ py ∧ py < originY s y + n
  · obtain ⟨a, b, c, d⟩ := h
    have e : py - originY s y < n := by omega
    simp [a, b, c, d, e, h31, h63]
  · rw [decide_eq_false h, Bool.false_and]
    apply decide_eq_false
    rintro ⟨a, b, _, _, c, d, _⟩
    exact h ⟨c, d, a, b⟩

/-- A pixel of the screen after a sprite. -/
theorem fbRead_drawn (x y : Reg) (n px py : Nat) (hx : px < 64) (hy : py < 32) :
    fbRead (drawn s x y n).fb px py = (fbRead s.fb px py != spriteBit s x y n px py) := by
  rw [fbRead_drawRows, ← spriteBit_eq s x y n _ _ hx hy]

/-- The collision of a sprite with the screen. -/
theorem collision_drawn (x y : Reg) (n : Nat) : (drawn s x y n).collision = true ↔
    ∃ px py : Nat, px < 64 ∧ py < 32 ∧ fbRead s.fb px py = true ∧ spriteBit s x y n px py = true := by
  rw [collision_drawRows]
  constructor
  · rintro (h | ⟨j, k, hj, hk, hx, hy, hb, hr⟩)
    · cases h
    · refine ⟨_, _, by omega, by omega, hr, ?_⟩
      rw [← spriteBit_eq s x y n _ _ (by omega) (by omega)]
      simp only [decide_eq_true_eq]
      refine ⟨by omega, by omega, hy, hx, by omega, by omega, ?_⟩
      rwa [Nat.add_sub_cancel_left, Nat.add_sub_cancel_left]
  · rintro ⟨px, py, hx, hy, hr, hb⟩
    rw [← spriteBit_eq s x y n _ _ hx hy] at hb
    simp only [decide_eq_true_eq] at hb
    obtain ⟨a, b, _, _, c, d, e⟩ := hb
    refine .inr ⟨py - originY s y, px - originX s x, by omega, by omega, by omega, by omega, e, ?_⟩
    rwa [show originX s x + (px - originX s x) = px by omega, show originY s y + (py - originY s y) = py by omega]

end Sys2Proof.Machine
end

