-- ==== Sys2Proof/Tests/Slice0.lean ====
section
/-! SUPPORT. Tests: well-formedness, words written out from the spec's encodings, one step at a time with the values of
95_test_vectors.md, and a witness for the hypotheses of every statement. -/

namespace Sys2Proof.Tests

open Sys2Proof Sys2Proof.Machine

/-! ## Well-formedness: an ill-formed term for each check -/

theorem test_wf_jp : wellFormed (.jp 0x1000#16) = false ∧ wellFormed (.jp 0x0FFF#16) = true := by decide
theorem test_wf_call : wellFormed (.call 0x1000#16) = false ∧ wellFormed (.call 0x0FFF#16) = true := by decide
theorem test_wf_ldI : wellFormed (.ldI 0x1000#16) = false ∧ wellFormed (.ldI 0x0FFF#16) = true := by decide
theorem test_wf_jpV0 : wellFormed (.jpV0 0x1000#16) = false ∧ wellFormed (.jpV0 0x0FFF#16) = true := by decide
theorem test_wf_drw : wellFormed (.drw 0 0 16) = false ∧ wellFormed (.drw 0 0 15) = true := by decide

/-! ## Decoding: every row's word, bit by bit from 30_encoding.md section 6 (OP, X, Y, N from the left) -/

theorem test_decode_control :
    decode 0b0000000011100000#16 = .instr (.cls) ∧
    decode 0b0000000011101110#16 = .instr (.ret) := by decide
theorem test_decode_jumps :
    decode 0b0001101010111100#16 = .instr (.jp 0xABC#16) ∧
    decode 0b0010101010111101#16 = .instr (.call 0xABD#16) ∧
    decode 0b1011000100100011#16 = .instr (.jpV0 0x123#16) := by decide
theorem test_decode_skips :
    decode 0b0011000101000010#16 = .instr (.seImm 1 0x42#8) ∧
    decode 0b0100001001000011#16 = .instr (.sneImm 2 0x43#8) ∧
    decode 0b0101000100100000#16 = .instr (.seReg 1 2) ∧
    decode 0b1001001101000000#16 = .instr (.sneReg 3 4) ∧
    decode 0b0101000100100111#16 = .instr (.seReg 1 2) ∧
    decode 0b1001000100101111#16 = .instr (.sneReg 1 2) := by decide
theorem test_decode_loads :
    decode 0b0110101011111110#16 = .instr (.ldImm 10 0xFE#8) ∧
    decode 0b0111111100000010#16 = .instr (.addImm 15 0x02#8) ∧
    decode 0b1100000100001111#16 = .instr (.rnd 1 0x0F#8) := by decide
theorem test_decode_alu :
    decode 0b1000000100100000#16 = .instr (.ldReg 1 2) ∧
    decode 0b1000000100100001#16 = .instr (.or 1 2) ∧
    decode 0b1000000100100010#16 = .instr (.and 1 2) ∧
    decode 0b1000000100100011#16 = .instr (.xor 1 2) ∧
    decode 0b1000000100100100#16 = .instr (.addReg 1 2) ∧
    decode 0b1000000100100101#16 = .instr (.sub 1 2) ∧
    decode 0b1000000100100110#16 = .instr (.shr 1 2) ∧
    decode 0b1000000100100111#16 = .instr (.subn 1 2) ∧
    decode 0b1000000100101110#16 = .instr (.shl 1 2) := by decide
theorem test_decode_index :
    decode 0b1010000100100011#16 = .instr (.ldI 0x123#16) ∧
    decode 0b1111000100011110#16 = .instr (.addI 1) ∧
    decode 0b1111001000110011#16 = .instr (.ldBcd 2) ∧
    decode 0b1111001101010101#16 = .instr (.storeRegs 3) ∧
    decode 0b1111010001100101#16 = .instr (.loadRegs 4) := by decide
theorem test_decode_display :
    decode 0b1101001000111001#16 = .instr (.drw 2 3 9) := by decide
theorem test_decode_timers_keys :
    decode 0b1110000110011110#16 = .instr (.skp 1) ∧
    decode 0b1110001010100001#16 = .instr (.sknp 2) ∧
    decode 0b1111001100000111#16 = .instr (.ldVxDt 3) ∧
    decode 0b1111010000001010#16 = .instr (.ldVxKey 4) ∧
    decode 0b1111010100010101#16 = .instr (.ldDtVx 5) ∧
    decode 0b1111011000011000#16 = .instr (.ldStVx 6) := by decide

/-- The unknown opcodes of V-unknown. -/
theorem test_decode_unknown :
    decode 0x0000#16 = .unknownOpcode 0x0000#16 ∧
    decode 0x0123#16 = .unknownOpcode 0x0123#16 ∧
    decode 0x00E1#16 = .unknownOpcode 0x00E1#16 ∧
    decode 0x00FE#16 = .unknownOpcode 0x00FE#16 ∧
    decode 0x8008#16 = .unknownOpcode 0x8008#16 ∧
    decode 0x812F#16 = .unknownOpcode 0x812F#16 ∧
    decode 0x8128#16 = .unknownOpcode 0x8128#16 ∧
    decode 0xE000#16 = .unknownOpcode 0xE000#16 ∧
    decode 0xE19F#16 = .unknownOpcode 0xE19F#16 ∧
    decode 0xF129#16 = .unknownOpcode 0xF129#16 ∧
    decode 0xF100#16 = .unknownOpcode 0xF100#16 ∧
    decode 0xF01F#16 = .unknownOpcode 0xF01F#16 ∧
    decode 0xF075#16 = .unknownOpcode 0xF075#16 ∧
    decode 0xFFFF#16 = .unknownOpcode 0xFFFF#16 := by decide

/-- Every row selects its instruction's word. -/
theorem test_rows_select : ∀ i ∈ oneOfEachRow, (opcodeRow i).selects (encode i) = true := by decide

theorem test_truncated : decodeBytes [0x60#8] = (.truncated, [0x60#8]) ∧ decodeBytes [] = (.truncated, []) := by decide

theorem test_decodeTableWord : decodeTableWord 16 0x8124 = some (.addReg 1 2) ∧ decodeTableWord 16 0x812F = none := by
  decide

theorem test_encode_canonical : encode (.sneReg 1 2) = 0x9120#16 ∧ encode (.drw 2 3 9) = 0xD239#16 := by decide

/-! ## The helper: the state of 95_test_vectors.md's conventions -/

/-- Reset, with an instruction word where the step fetches. -/
def before (w : Nat) : State := State.reset.withFetchWord 16 w

/-- Some register values. -/
def withV (vs : List (Reg × Byte)) (s : State) : State := vs.foldl (fun s v => s.setV v.1 v.2) s

/-- Some memory bytes. -/
def withMem (a : Nat) (bs : List Byte) (s : State) : State := s.setMem (Memory.writeBytes s.mem a bs)

/-- Some keys pressed. -/
def withKeys (ks : List Reg) (s : State) : State := s.setKeys (Vector.ofFn fun k => ks.contains k)

/-- Some pixels set. -/
def withPixels (ps : List (Nat × Nat)) (s : State) : State :=
  s.setFb (ps.foldl (fun f p => fbWrite f p.1 p.2 true) s.fb)

/-- Some call stack entries. -/
def withStack (es : List Word) (n : Fin 17) (s : State) : State :=
  s.setStack (Vector.ofFn fun k => es.getD k.val 0) n

/-- What a step leaves, seen through `f`. -/
def after {α : Type} (f : State → α) (s : State) : Option α := (nextState? (step s)).map f

/-- A fault and its record. -/
def latched (t : State) : Option FaultRecord := t.fault

/-! ## One step: control transfer (V-00EE to V-BNNN) -/

theorem test_ret :
    after (fun t => (t.pc, t.sp, t.stack[(0 : Fin 16)])) (withStack [0x0300#16, 0x0456#16] 2 (before 0x00EE)) =
      some (0x0456#16, 1, 0x0300#16) := by decide
theorem test_ret_underflow :
    after (fun t => (t.pc, t.sp, latched t)) (before 0x00EE) =
      some (0x0200#16, 0, some ⟨.stackUnderflow, 0x0200#16, 0x00EE#16, 0#16⟩) := by decide
theorem test_jp :
    after (fun t => t.pc) (before 0x1203) =
      some 0x0203#16 := by decide
theorem test_jp_self :
    after (fun t => t) (before 0x1200) =
      some (before 0x1200) := by decide
theorem test_call_last_entry :
    after (fun t => (t.pc, t.sp, t.stack[(15 : Fin 16)])) (withStack [] 15 (before 0x2ABC)) =
      some (0x0ABC#16, 16, 0x0202#16) := by decide
theorem test_call_overflow :
    after (fun t => (t.pc, t.sp, latched t)) (withStack [] 16 (before 0x2ABC)) =
      some (0x0200#16, 16, some ⟨.stackOverflow, 0x0200#16, 0x2ABC#16, 0x0202#16⟩) := by decide
theorem test_seImm_taken :
    after (fun t => t.pc) (withV [(1, 0x42#8)] (before 0x3142)) =
      some 0x0204#16 := by decide
theorem test_seImm_not :
    after (fun t => t.pc) (withV [(1, 0x43#8)] (before 0x3142)) =
      some 0x0202#16 := by decide
theorem test_sneImm_not :
    after (fun t => t.pc) (withV [(1, 0x42#8)] (before 0x4142)) =
      some 0x0202#16 := by decide
theorem test_sneImm_taken :
    after (fun t => t.pc) (withV [(1, 0x43#8)] (before 0x4142)) =
      some 0x0204#16 := by decide
theorem test_seReg_nibble_ignored :
    after (fun t => t.pc) (withV [(1, 0x07#8), (2, 0x07#8)] (before 0x5127)) =
      some 0x0204#16 := by decide
theorem test_seReg_not :
    after (fun t => t.pc) (withV [(1, 0x07#8), (2, 0x08#8)] (before 0x5120)) =
      some 0x0202#16 := by decide
theorem test_sneReg_not :
    after (fun t => t.pc) (withV [(1, 0x07#8), (2, 0x07#8)] (before 0x9120)) =
      some 0x0202#16 := by decide
theorem test_sneReg_taken :
    after (fun t => t.pc) (withV [(1, 0x07#8), (2, 0x08#8)] (before 0x912F)) =
      some 0x0204#16 := by decide
theorem test_skip_past_memory :
    after (fun t => t.pc) ((State.reset.setPc 0x0FFE#16).withFetchWord 16 0x3100) =
      some 0x1002#16 := by decide
theorem test_jpV0 :
    after (fun t => t.pc) (withV [(0, 0xFF#8)] (before 0xBFFF)) =
      some 0x10FE#16 := by decide

/-! ## One step: registers (V-6xNN to V-CxNN) -/

theorem test_ldImm :
    after (fun t => (t.V[(15 : Reg)], t.pc)) (withV [(15, 0x01#8)] (before 0x6F12)) =
      some (0x12#8, 0x0202#16) := by decide
theorem test_addImm_wraps :
    after (fun t => (t.V[(0 : Reg)], t.V[(15 : Reg)], t.pc)) (withV [(0, 0xFF#8), (15, 0x00#8)] (before 0x7001)) =
      some (0x00#8, 0x00#8, 0x0202#16) := by decide
theorem test_addImm_VF_is_the_sum :
    after (fun t => (t.V[(15 : Reg)], t.pc)) (withV [(15, 0xFF#8)] (before 0x7F02)) =
      some (0x01#8, 0x0202#16) := by decide
theorem test_ldReg :
    after (fun t => (t.V[(1 : Reg)], t.V[(2 : Reg)], t.pc)) (withV [(1, 0xAA#8), (2, 0x55#8)] (before 0x8120)) =
      some (0x55#8, 0x55#8, 0x0202#16) := by decide
theorem test_or_keeps_VF :
    after (fun t => (t.V[(1 : Reg)], t.V[(15 : Reg)], t.pc)) (withV [(1, 0xA0#8), (2, 0x0C#8), (15, 0x01#8)] (before 0x8121)) =
      some (0xAC#8, 0x01#8, 0x0202#16) := by decide
theorem test_and_keeps_VF :
    after (fun t => (t.V[(1 : Reg)], t.V[(15 : Reg)], t.pc)) (withV [(1, 0xF0#8), (2, 0x3C#8), (15, 0x01#8)] (before 0x8122)) =
      some (0x30#8, 0x01#8, 0x0202#16) := by decide
theorem test_xor_keeps_VF :
    after (fun t => (t.V[(1 : Reg)], t.V[(15 : Reg)], t.pc)) (withV [(1, 0xFF#8), (2, 0x0F#8), (15, 0x01#8)] (before 0x8123)) =
      some (0xF0#8, 0x01#8, 0x0202#16) := by decide
theorem test_addReg_carry :
    after (fun t => (t.V[(1 : Reg)], t.V[(15 : Reg)], t.pc)) (withV [(1, 0xF0#8), (2, 0x10#8)] (before 0x8124)) =
      some (0x00#8, 0x01#8, 0x0202#16) := by decide
theorem test_addReg_into_VF :
    after (fun t => (t.V[(15 : Reg)], t.pc)) (withV [(15, 0x07#8), (1, 0x02#8)] (before 0x8F14)) =
      some (0x00#8, 0x0202#16) := by decide
theorem test_sub_equal :
    after (fun t => (t.V[(1 : Reg)], t.V[(15 : Reg)], t.pc)) (withV [(1, 0x05#8), (2, 0x05#8)] (before 0x8125)) =
      some (0x00#8, 0x01#8, 0x0202#16) := by decide
theorem test_sub_borrow :
    after (fun t => (t.V[(1 : Reg)], t.V[(15 : Reg)], t.pc)) (withV [(1, 0x05#8), (2, 0x06#8)] (before 0x8125)) =
      some (0xFF#8, 0x00#8, 0x0202#16) := by decide
theorem test_subn :
    after (fun t => (t.V[(1 : Reg)], t.V[(15 : Reg)], t.pc)) (withV [(1, 0x05#8), (2, 0x06#8)] (before 0x8127)) =
      some (0x01#8, 0x01#8, 0x0202#16) := by decide
theorem test_subn_borrow :
    after (fun t => (t.V[(1 : Reg)], t.V[(15 : Reg)], t.pc)) (withV [(1, 0x06#8), (2, 0x05#8)] (before 0x8127)) =
      some (0xFF#8, 0x00#8, 0x0202#16) := by decide
theorem test_shr_shifts_VY :
    after (fun t => (t.V[(1 : Reg)], t.V[(2 : Reg)], t.V[(15 : Reg)], t.pc)) (withV [(1, 0x04#8), (2, 0x03#8)] (before 0x8126)) =
      some (0x01#8, 0x03#8, 0x01#8, 0x0202#16) := by decide
theorem test_shr_into_VF :
    after (fun t => (t.V[(15 : Reg)], t.pc)) (withV [(2, 0x03#8), (15, 0x00#8)] (before 0x8F26)) =
      some (0x01#8, 0x0202#16) := by decide
theorem test_shl_shifts_VY :
    after (fun t => (t.V[(1 : Reg)], t.V[(15 : Reg)], t.pc)) (withV [(1, 0x80#8), (2, 0x41#8)] (before 0x812E)) =
      some (0x82#8, 0x00#8, 0x0202#16) := by decide
theorem test_shl_carry :
    after (fun t => (t.V[(1 : Reg)], t.V[(15 : Reg)], t.pc)) (withV [(1, 0x01#8), (2, 0x81#8)] (before 0x812E)) =
      some (0x02#8, 0x01#8, 0x0202#16) := by decide
/-- 0xC100: any draw, masked to 0; one draw is consumed. -/
theorem test_rnd_masked : nextState? (exec (.rnd 1 0#8) State.reset) =
    some ((State.reset.setPc 0x0202#16).consumeDraw) := by
  simp only [exec, execRnd, nextState?, BitVec.and_zero]; decide
theorem test_rnd_step : after (fun t => (t.draws, t.V[(2 : Reg)], t.pc)) (before 0xC10F) = some (1, 0#8, 0x0202#16) := by
  decide

/-! ## One step: index and memory (V-ANNN to V-Fx65) -/

theorem test_ldI :
    after (fun t => t.I) ((before 0xA123).setI 0xFFFF#16) =
      some 0x0123#16 := by decide
theorem test_addI_wraps :
    after (fun t => (t.I, t.V[(15 : Reg)])) ((withV [(1, 0x01#8)] (before 0xF11E)).setI 0xFFFF#16) =
      some (0#16, 0#8) := by decide
theorem test_ldBcd :
    after (fun t => (Memory.readBytes t.mem 0x0FFD 3, t.I)) ((withV [(1, 0x6D#8)] (before 0xF133)).setI 0x0FFD#16) =
      some ([1#8, 0#8, 9#8], 0x0FFD#16) := by decide
theorem test_ldBcd_out :
    after (fun t => (Memory.readBytes t.mem 0x0FFE 2, latched t)) ((withV [(1, 0x6D#8)] (before 0xF133)).setI 0x0FFE#16) =
      some ([0#8, 0#8], some ⟨.memWriteOutOfBounds, 0x0200#16, 0xF133#16, 0x1000#16⟩) := by decide
theorem test_storeRegs :
    after (fun t => (Memory.readBytes t.mem 0x300 4, t.I)) ((withV [(0, 0x01#8), (1, 0x02#8), (2, 0x03#8), (3, 0x04#8)] (before 0xF255)).setI 0x0300#16) =
      some ([1#8, 2#8, 3#8, 0#8], 0x0300#16) := by decide
theorem test_storeRegs_out :
    after (fun t => (Memory.read t.mem 0xFF1, latched t)) ((withV [(0, 0x01#8)] (before 0xFF55)).setI 0x0FF1#16) =
      some (0#8, some ⟨.memWriteOutOfBounds, 0x0200#16, 0xFF55#16, 0x1000#16⟩) := by decide
theorem test_loadRegs :
    after (fun t => (t.V[(0 : Reg)], t.V[(1 : Reg)], t.V[(2 : Reg)], t.V[(3 : Reg)], t.pc)) (withMem 0x300 [1#8, 2#8, 3#8, 4#8] ((withV [(3, 0x09#8)] (before 0xF265)).setI 0x0300#16)) =
      some (0x01#8, 0x02#8, 0x03#8, 0x09#8, 0x0202#16) := by decide
theorem test_loadRegs_out :
    after (fun t => (t.pc, latched t)) ((before 0xF165).setI 0x0FFF#16) =
      some (0x0200#16, some ⟨.memReadOutOfBounds, 0x0200#16, 0xF165#16, 0x1000#16⟩) := by decide

/-! ## One step: display (V-00E0, V-DXYN) -/

theorem test_cls :
    after (fun t => (t.fb == clearFb, t.V[(15 : Reg)], t.pc)) (withPixels [(0, 0), (5, 0), (63, 31)] (withV [(15, 0x01#8)] (before 0x00E0))) =
      some (true, 1#8, 0x0202#16) := by decide
theorem test_cls_not_00E1 :
    after (fun t => (fbRead t.fb 3 0, t.pc)) (withPixels [(3, 0)] (before 0x00E1)) =
      some (true, 0x0202#16) := by decide
theorem test_drw_clips :
    after (fun t => (fbRead t.fb 60 0, fbRead t.fb 63 0, fbRead t.fb 0 0, fbRead t.fb 0 1, t.V[(15 : Reg)])) (withMem 0x300 [0xFF#8] ((withV [(0, 0x3C#8)] (before 0xD011)).setI 0x0300#16)) =
      some (true, true, false, false, 0#8) := by decide
theorem test_drw_collides :
    after (fun t => (fbRead t.fb 0 0, fbRead t.fb 1 0, t.V[(15 : Reg)])) (withMem 0x300 [0x80#8] (withPixels [(0, 0), (1, 0)] ((before 0xD011).setI 0x0300#16))) =
      some (false, true, 1#8) := by decide
theorem test_drw_empty :
    after (fun t => (t.fb == clearFb, t.V[(15 : Reg)], latched t)) ((withV [(15, 0x01#8)] (before 0xD010)).setI 0x1000#16) =
      some (true, 0#8, none) := by decide
theorem test_drw_out :
    after (fun t => (t.fb == clearFb, latched t)) ((withV [(1, 0x1F#8)] (before 0xD012)).setI 0x0FFF#16) =
      some (true, some ⟨.memReadOutOfBounds, 0x0200#16, 0xD012#16, 0x1000#16⟩) := by decide

/-! ## One step: timers and keypad (V-Ex9E to V-Fx0A) -/

theorem test_ldVxDt :
    after (fun t => (t.V[(1 : Reg)], t.dt)) ((withV [(1, 0x09#8)] (before 0xF107)).setDt 0x2A#8) =
      some (0x2A#8, 0x2A#8) := by decide
theorem test_ldDtVx :
    after (fun t => (t.dt, t.st)) (withV [(1, 0x2A#8)] (before 0xF115)) =
      some (0x2A#8, 0#8) := by decide
theorem test_ldStVx :
    after (fun t => (t.st, t.dt, soundActive t)) (withV [(1, 0x2A#8)] (before 0xF118)) =
      some (0x2A#8, 0#8, true) := by decide
theorem test_skp_pressed :
    after (fun t => t.pc) (withKeys [5] (withV [(1, 0x05#8)] (before 0xE19E))) =
      some 0x0204#16 := by decide
theorem test_skp_no_key :
    after (fun t => (t.pc, latched t)) (withV [(1, 0x10#8)] (before 0xE19E)) =
      some (0x0200#16, some ⟨.keyIndexOutOfRange, 0x0200#16, 0xE19E#16, 0x0010#16⟩) := by decide
theorem test_sknp_pressed :
    after (fun t => t.pc) (withKeys [5] (withV [(1, 0x05#8)] (before 0xE1A1))) =
      some 0x0202#16 := by decide
theorem test_sknp_no_key :
    after (fun t => (t.pc, latched t)) (withV [(1, 0xFF#8)] (before 0xE1A1)) =
      some (0x0200#16, some ⟨.keyIndexOutOfRange, 0x0200#16, 0xE1A1#16, 0x00FF#16⟩) := by decide
theorem test_ldVxKey_waits :
    after (fun t => (t.pc, t.runState, t.V[(1 : Reg)])) (withV [(1, 0xEE#8)] (before 0xF10A)) =
      some (0x0200#16, .waitingForKey, 0xEE#8) := by decide
theorem test_ldVxKey_takes :
    after (fun t => (t.pc, t.runState, t.V[(1 : Reg)], t.keys[(3 : Reg)], t.keys[(9 : Reg)], t.keys[(15 : Reg)])) ((withKeys [3, 9, 15] (withV [(1, 0xEE#8)] (before 0xF10A))).setRunState .waitingForKey) =
      some (0x0202#16, .running, 3#8, false, true, true) := by decide

/-! ## The step cycle and the host (V-unknown, V-fetch, V-host) -/

theorem test_unknown :
    after (fun t => (t.pc, t.V[(1 : Reg)])) (withV [(1, 0x01#8), (2, 0x02#8)] (before 0x812F)) =
      some (0x0202#16, 1#8) := by decide
theorem test_fetch_last :
    after (fun t => (t.V[(0 : Reg)], t.pc)) ((State.reset.setPc 0x0FFE#16).withFetchWord 16 0x602A) =
      some (0x2A#8, 0x1000#16) := by decide
theorem test_fetch_out :
    after (fun t => latched t) (State.reset.setPc 0x0FFF#16) =
      some (some ⟨.fetchOutOfBounds, 0x0FFF#16, 0#16, 0x0FFF#16⟩) := by decide
theorem test_diag : diagEvent (before 0xF129) = some 0xF129#16 ∧ diagEvent (before 0x6005) = none := by decide

theorem test_tick : (tickTimers ((State.reset.setDt 1#8).setSt 255#8)).dt = 0#8 ∧
    (tickTimers (State.reset.setSt 255#8)).st = 254#8 ∧ (tickTimers State.reset).dt = 0#8 := by decide

theorem test_loadRom : Memory.readBytes (loadRom [0x12#8, 0x00#8] 0).mem 0x1FF 4 = [0#8, 0x12#8, 0#8, 0#8] ∧
    (loadRom [0x12#8, 0x00#8] 0).mem = [(0x200, 0x12#8)] := by decide

/-! ## Memory keeps its canonical form: writing what an unlisted address reads as removes the entry -/

theorem test_memory_canonical : Memory.wf State.reset.mem ∧
    Memory.write (Memory.write [] 7 5#8) 7 0#8 = [] ∧
    Memory.write (Memory.write [] 7 5#8) 3 1#8 = [(3, 1#8), (7, 5#8)] := by decide

/-! ## Witnesses: concrete states and operands that meet the hypotheses of each statement, clause by clause -/

theorem witness_DecodeOfEncodeIsTheInstruction :
    wellFormed (.jp 0x0FFF#16) = true ∧ wellFormed (.drw 15 15 15) = true ∧ wellFormed (.loadRegs 15) = true := by decide

theorem witness_EncodeOfDecodeIsTheWordButForIgnoredNibbles :
    decode 0x5127#16 = .instr (.seReg 1 2) ∧ decode 0x912F#16 = .instr (.sneReg 1 2) ∧
    decode 0xFF65#16 = .instr (.loadRegs 15) := by decide

theorem witness_DecoderAndOpcodeMapSelectTheSame :
    decode 0xD01F#16 = .instr (.drw 0 1 15) ∧ opcodeRow (.drw 0 1 15) ∈ opcodeMap := by decide

theorem witness_encodedAs : ∀ i ∈ oneOfEachRow, encode i &&& (opcodeRow i).mask = (opcodeRow i).value := by decide

/-- A state at the last address that can be fetched, holding 0x602A. -/
def atTop : State := (State.reset.setPc 0x0FFE#16).withFetchWord 16 0x602A

theorem witness_StepRunsTheDecodedInstruction :
    atTop.fault = none ∧ atTop.pc.toNat ≤ 4094 ∧
    (0x602A#16).toNat = (Memory.read atTop.mem atTop.pc.toNat).toNat * 256
      + (Memory.read atTop.mem (atTop.pc.toNat + 1)).toNat ∧
    decode 0x602A#16 = .instr (.ldImm 0 0x2A#8) := by decide

theorem witness_FetchBeyondMemoryLatchesItsFault :
    (State.reset.setPc 0x0FFF#16).fault = none ∧ 4094 < (State.reset.setPc 0x0FFF#16).pc.toNat := by decide

theorem witness_UnknownOpcodeOnlyAdvances : (before 0x812F).fault = none ∧ fetch (before 0x812F) = some 0x812F#16 ∧
    opcodeMap.all (fun r => !r.selects 0x812F#16) = true := by decide

/-- A state whose last step met a return with nothing called. -/
def stopped : State := (before 0x00EE).setFault ⟨.stackUnderflow, 0x0200#16, 0x00EE#16, 0#16⟩

theorem witness_FaultedMachineIsInert :
    stopped.fault = some ⟨.stackUnderflow, 0x0200#16, 0x00EE#16, 0#16⟩ := by decide

/-- The first clause, each faulting instruction at the edge of its condition. -/
theorem witness_FaultsAreRaised_raised :
    faultTable .ret State.reset = some (.stackUnderflow, 0) ∧
    faultTable (.call 0x0ABC#16) (withStack [] 16 State.reset) = some (.stackOverflow, 0x0202) ∧
    faultTable (.ldBcd 1) (State.reset.setI 0x0FFE#16) = some (.memWriteOutOfBounds, 0x1000) ∧
    faultTable (.storeRegs 15) (State.reset.setI 0x0FF1#16) = some (.memWriteOutOfBounds, 0x1000) ∧
    faultTable (.loadRegs 0) (State.reset.setI 0x1000#16) = some (.memReadOutOfBounds, 0x1000) ∧
    faultTable (.drw 0 1 2) (State.reset.setI 0x0FFF#16) = some (.memReadOutOfBounds, 0x1000) ∧
    faultTable (.skp 1) (State.reset.setV 1 16#8) = some (.keyIndexOutOfRange, 16) ∧
    faultTable (.sknp 1) (State.reset.setV 1 255#8) = some (.keyIndexOutOfRange, 255) := by decide

/-- The second clause, each faulting instruction just inside. -/
theorem witness_FaultsAreRaised_not :
    faultTable .ret (withStack [] 1 State.reset) = none ∧
    faultTable (.call 0x0ABC#16) (withStack [] 15 State.reset) = none ∧
    faultTable (.ldBcd 1) (State.reset.setI 0x0FFD#16) = none ∧
    faultTable (.storeRegs 15) (State.reset.setI 0x0FF0#16) = none ∧
    faultTable (.loadRegs 0) (State.reset.setI 0x0FFF#16) = none ∧
    faultTable (.drw 0 1 1) (State.reset.setI 0x0FFF#16) = none ∧
    faultTable (.drw 0 1 0) (State.reset.setI 0xFFFF#16) = none ∧
    faultTable (.skp 1) (State.reset.setV 1 15#8) = none ∧
    faultTable (.sknp 1) (State.reset.setV 1 15#8) = none := by decide

/-! ### States that meet the invariant -/

/-- A machine waiting at an Fx0A. -/
def waiting : State := (before 0xF00A).setRunState .waitingForKey

theorem waiting_inv : waiting.Inv :=
  ⟨by decide, by decide, by decide, fun _ => ⟨0, by decide⟩, fun _ => rfl, (fun _ h => nomatch h)⟩

/-- The same machine after `set_keys` with keys 7 and 9 down. -/
def keyDown : State := withKeys [7, 9] waiting

theorem keyDown_inv : keyDown.Inv :=
  ⟨by decide, by decide, by decide, fun _ => ⟨0, by decide⟩, fun _ => rfl, (fun _ h => nomatch h)⟩

theorem stopped_inv : stopped.Inv :=
  ⟨by decide, by decide, by decide, (fun h => nomatch h), (fun h => nomatch h), fun r h => by
    cases h; exact ⟨rfl, (fun h => nomatch h), fun _ => by decide⟩⟩

/-- A machine in a subroutine, with one return address held. -/
def inCall : State := withStack [0x1000#16] 1 (before 0x00EE)

theorem inCall_inv : inCall.Inv :=
  ⟨by decide, by decide, by decide, (fun h => nomatch h), (fun h => nomatch h), (fun _ h => nomatch h)⟩

theorem witness_EveryStepKeepsTheInvariant :
    (waiting.Inv ∧ nextState? (step waiting) = some waiting) ∧ (stopped.Inv ∧ nextState? (step stopped) = some stopped) ∧
    (inCall.Inv ∧ nextState? (step inCall) = some ((withStack [0x1000#16] 0 inCall).setPc 0x1000#16)) :=
  ⟨⟨waiting_inv, by decide⟩, ⟨stopped_inv, by decide⟩, ⟨inCall_inv, by decide⟩⟩

theorem witness_EveryReachableStateMeetsTheInvariant :
    hostRun [.loadRom [0x12#8, 0x00#8], .step, .tickTimers] none = some (before 0x1200) := by decide

theorem witness_WaitingStepsOnlyPollTheKeys :
    (waiting.Inv ∧ waiting.runState = .waitingForKey ∧ ∀ k : Reg, waiting.keys[k] = false) ∧
    (keyDown.Inv ∧ keyDown.runState = .waitingForKey ∧ ∃ k : Reg, keyDown.keys[k] = true) :=
  ⟨⟨waiting_inv, by decide⟩, ⟨keyDown_inv, by decide⟩⟩

/-! ### The program counter and the frames -/

theorem witness_ProgramCounter_instruction :
    inCall.fault = none ∧ fetch inCall = some 0x00EE#16 ∧ decode 0x00EE#16 = .instr .ret ∧
    faultTable .ret inCall = none ∧ inCall.Inv :=
  ⟨rfl, by decide, by decide, by decide, inCall_inv⟩

theorem witness_ProgramCounter_unknown :
    let s := (State.reset.setPc 0x0FFE#16)
    s.fault = none ∧ fetch s = some 0#16 ∧ decode 0#16 = .unknownOpcode 0#16 := by decide

theorem witness_ProgramCounter_fault :
    nextState? (step (before 0x00EE)) = some stopped ∧ stopped.fault ≠ none := by decide

theorem witness_InstructionsChangeOnlyTheirNamedParts :
    nextState? (exec (.ldI 0x0123#16) State.reset) = some ((State.reset.setI 0x0123#16).setPc 0x0202#16) ∧
    ¬ samePart State.reset ((State.reset.setI 0x0123#16).setPc 0x0202#16) .I := by
  constructor
  · decide
  · simp only [samePart]; decide

theorem witness_FlagWritersLeaveZeroOrOneInVF :
    (writesFlag (.addReg 15 15) = true ∧ faultTable (.addReg 15 15) State.reset = none ∧
      nextState? (exec (.addReg 15 15) State.reset) = some (State.reset.setPc 0x0202#16)) ∧
    (writesFlag (.drw 0 1 2) = true ∧ faultTable (.drw 0 1 2) (State.reset.setI 0x0FFF#16) ≠ none ∧
      (nextState? (exec (.drw 0 1 2) (State.reset.setI 0x0FFF#16))).isSome = true) := by decide

/-! ### Host operations -/

theorem witness_LoadRomLeavesTheResetStateWithTheRom :
    (List.replicate 3584 (0xAB#8 : Byte)).length ≤ 3584 ∧ ([] : List Byte).length ≤ 3584 :=
  ⟨by rw [List.length_replicate], by decide⟩

theorem witness_LoadRomForgetsThePast :
    hostOp (.loadRom [0x00#8, 0xEE#8]) none = (some (before 0x00EE), .done) ∧
    hostOp (.loadRom [0x00#8, 0xEE#8]) (some stopped.consumeDraw) = (some (before 0x00EE).consumeDraw, .done) := by decide

theorem witness_TooLongRomsAndUnloadedOperationsAreRefused :
    3584 < (List.replicate 3585 (0xAB#8 : Byte)).length ∧ isLoadRom .step = false ∧ isLoadRom .status = false := by
  refine ⟨?_, rfl, rfl⟩
  rw [List.length_replicate]; decide

theorem witness_HostOperationsChangeOnlyWhatTheyName :
    isLoadRom .tickTimers = false ∧ HostOp.tickTimers ≠ .step := by decide

theorem witness_LatchedFaultOutlivesAllButLoadRom :
    stopped.fault ≠ none ∧
    [HostOp.step, .tickTimers, .snapshotPrevious].all (fun op => !isLoadRom op) = true := by decide

/-! ### Instructions -/

theorem witness_CallPushesTheAddressAfterIt :
    (withStack [] 0 State.reset).sp.val = (0 : Fin 16).val ∧ (withStack [] 15 State.reset).sp.val = (15 : Fin 16).val := by
  decide

theorem witness_ReturnPopsTheNewestAddress :
    (inCall.sp.val = (0 : Fin 16).val + 1 ∧ inCall.Inv) ∧
    (withStack [] 16 State.reset).sp.val = (15 : Fin 16).val + 1 ∧ State.reset.sp.val = 0 :=
  ⟨⟨rfl, inCall_inv⟩, by decide⟩

theorem witness_CallThenReturnComesBackAfterTheCall :
    let s := withStack [] 15 State.reset
    let t := (s.setStack (s.stack.set 15 0x0202#16) 16).setPc 0x0ABC#16
    s.sp.val < 16 ∧ nextState? (exec (.call 0x0ABC#16) s) = some t ∧ (t.setPc 0x0AC0#16).sp = t.sp ∧
    ∀ k : Fin 16, k.val < t.sp.val → (t.setPc 0x0AC0#16).stack[k] = t.stack[k] := by decide

theorem witness_IndexedJumpAddsV0 : (0x0FFF#16).toNat < 4096 := by decide

theorem witness_DecimalDigitsAreStoredAtI :
    (State.reset.setI 0x0FFD#16).I.toNat ≤ 4093 ∧ 4093 < (State.reset.setI 0x0FFE#16).I.toNat := by decide

theorem witness_StoreRegistersCopiesThemToMemory :
    (State.reset.setI 0x0FF0#16).I.toNat + (15 : Reg).val ≤ 4095 ∧ (15 : Reg) ≤ 15 := by decide

theorem witness_LoadRegistersCopiesThemFromMemory :
    (State.reset.setI 0x0FFF#16).I.toNat + (0 : Reg).val ≤ 4095 ∧
    4095 < (State.reset.setI 0x0FFF#16).I.toNat + (1 : Reg).val := by decide

/-- `V[0]`, `V[1]` hold 0x12, 0x0A and `I` points at the next instruction (program P7). -/
def storing : State := (withV [(0, 0x12#8), (1, 0x0A#8)] (before 0xF155)).setI 0x0202#16

/-- What its store leaves. -/
def stored : State := (withMem 0x0202 [0x12#8, 0x0A#8] storing).setPc 0x0202#16

theorem witness_StoreThenLoadRestoresTheRegisters :
    storing.I.toNat + (1 : Reg).val ≤ 4095 ∧ nextState? (exec (.storeRegs 1) storing) = some stored ∧
    (withV [(0, 0#8)] stored).I = stored.I ∧ (withV [(0, 0#8)] stored).mem = stored.mem := by decide

theorem witness_FetchSeesTheBytesJustStored :
    storing.I.toNat + (1 : Reg).val ≤ 4095 ∧ nextState? (exec (.storeRegs 1) storing) = some stored ∧
    (1 : Reg).val = (0 : Reg).val + 1 ∧ (1 : Reg) ≤ 1 ∧ stored.pc.toNat = storing.I.toNat + (0 : Reg).val := by decide

/-- One pixel's sprite at the last byte of memory, `I` at it. -/
def drawing : State := withMem 0x0FFF [0x80#8] (State.reset.setI 0x0FFF#16)

theorem witness_DrawXorsTheSprite_bounds :
    (0 = 0 ∨ (State.reset.setI 0xFFFF#16).I.toNat + 0 - 1 ≤ 4095) ∧
    ((1 : Nat) = 0 ∨ drawing.I.toNat + 1 - 1 ≤ 4095) := by decide

/-- The collision clause: the pixel was set. -/
theorem witness_DrawXorsTheSprite_collision :
    ∃ px py : Nat, px < 64 ∧ py < 32 ∧ fbRead (withPixels [(0, 0)] drawing).fb px py = true ∧
      spriteBit (withPixels [(0, 0)] drawing) 0 1 1 px py = true := ⟨0, 0, by decide⟩

/-- The other clause: an empty screen. -/
theorem witness_DrawXorsTheSprite_noCollision (px py : Nat) : fbRead drawing.fb px py = false := by
  have h : drawing.fb = clearFb := rfl
  rw [h]; simp [fbRead, clearFb]

theorem witness_DrawingTwiceRestoresTheScreen :
    let t := (withPixels [(0, 0)] drawing).setPc 0x0202#16
    (0 : Reg) ≠ 15 ∧ (1 : Reg) ≠ 15 ∧ nextState? (exec (.drw 0 1 1) drawing) = some t ∧
    t.V[(15 : Reg)] = 0#8 ∧ t.fb ≠ drawing.fb := by decide

theorem witness_KeySkipsTestTheCurrentLevel :
    (State.reset.setV 1 15#8).V[(1 : Reg)].toNat = (15 : Reg).val ∧ State.reset.V[(1 : Reg)].toNat = (0 : Reg).val := by
  decide

theorem witness_KeyWaitHoldsWhileNoKeyIsPressed : ∀ k : Reg, State.reset.keys[k] = false := by decide

theorem witness_KeyWaitTakesAndConsumesTheLowestKey :
    (keyDown.keys[(7 : Reg)] = true ∧ ∀ j : Reg, j < 7 → keyDown.keys[j] = false) ∧
    ((withKeys [15] State.reset).keys[(15 : Reg)] = true ∧
      ∀ j : Reg, j < 15 → (withKeys [15] State.reset).keys[j] = false) := by decide

/-! ### Clauses about a second state or a destination -/

theorem witness_flag_destination : (1 : Reg) ≠ 15 := by decide

theorem witness_SoundIsActive_second : 0 < (255#8).toNat ↔ 0 < (State.reset.setSt 1#8).st.toNat := by decide

theorem witness_ReadDelayTimer_second :
    nextState? (exec (.ldI 0x0123#16) State.reset) = some ((State.reset.setI 0x0123#16).setPc 0x0202#16) ∧
    setsDelayTimer (.ldI 0x0123#16) = false := by decide

theorem witness_DecimalDigits_fetched :
    let s := (State.reset.setI 0x0FFD#16).setV 1 109#8
    let t := (withMem 0x0FFD [1#8, 0#8, 9#8] s).setPc 0x0202#16
    nextState? (exec (.ldBcd 1) s) = some t ∧ (t.setPc 0x0FFD#16).mem = t.mem ∧ (t.setPc 0x0FFE#16).mem = t.mem ∧
    (t.setPc 0x0FFD#16).pc = s.I ∧ (t.setPc 0x0FFE#16).pc = s.I + 1#16 := by decide

end Sys2Proof.Tests
end

section
/-! The host's side of who may change state (10_state.md R36): the frame of each operation of 46_host_operations.md but
`load_rom` and `step`. -/

namespace Sys2Proof.Machine

variable (s : State)

/-- A state's frame in itself; the query operations leave the machine so. -/
theorem UnchangedBut.refl (changed : List Part) : UnchangedBut changed s s := by
  intro p _; cases p <;> rfl

/-- R251. -/
theorem frame_setKeys (k : Vector Bool 16) : UnchangedBut [.keys] s (setKeys k s) := by
  intro p hp
  cases p
  case keys => simp at hp
  all_goals rfl

/-- R252. -/
theorem frame_snapshotPrevious : UnchangedBut [.prevKeys] s (snapshotPrevious s) := by
  intro p hp
  cases p
  case prevKeys => simp at hp
  all_goals rfl

/-- R253. -/
theorem frame_tickTimers : UnchangedBut [.dt, .st] s (tickTimers s) := by
  intro p hp
  cases p
  case dt => simp at hp
  case st => simp at hp
  all_goals rfl

/-- The frame of every operation but the two that may change any part: three write what they name, the three queries
write nothing. -/
theorem frame_hostOpRunning (op : HostOp) (hload : isLoadRom op = false) (hstep : op ≠ .step) :
    UnchangedBut (hostParts op) s (hostOpRunning op s).1 := by
  cases op with
  | loadRom rom => cases hload
  | step => exact absurd rfl hstep
  | setKeys k => exact frame_setKeys s k
  | snapshotPrevious => exact frame_snapshotPrevious s
  | tickTimers => exact frame_tickTimers s
  | soundActive => exact .refl s _
  | framebuffer => exact .refl s _
  | status => exact .refl s _

/-- Settles O22, from the frame of each operation on a machine that exists. -/
theorem hostOperationsChangeOnlyWhatTheyName : Obligations.HostOperationsChangeOnlyWhatTheyName :=
  fun op s hload hstep => ⟨_, _, rfl, frame_hostOpRunning s op hload hstep⟩

end Sys2Proof.Machine
end

section
/-! Register load (42_alu.md section 2, R160): 6xNN. -/

namespace Sys2Proof.Machine

/-- 6xNN has one outcome: the register is written and `pc` advances. -/
theorem exec_ldImm (s : State) (x : Reg) (nn : Byte) : exec (.ldImm x nn) s = .next (advance (s.setV x nn)) := rfl

/-- Settles O29, from the row's decoding, the one outcome of 6xNN, the read after a register write, and its frame. -/
theorem loadImmediateSetsTheRegister : Obligations.LoadImmediateSetsTheRegister := by
  refine ⟨decodes_ldImm, fun s x nn => ⟨_, exec_ldImm s x nn, ?_, rfl, frame_advance_setV s x nn⟩⟩
  rw [get_advance_setV, if_pos rfl]

end Sys2Proof.Machine
end

section
/-! The index register (43_index_memory.md): ANNN (R190). -/

namespace Sys2Proof.Machine

/-- An encoded address immediate has 12 bits (R91). -/
theorem fieldNNN_le (w : Word) : (fieldNNN w).toNat ≤ 4095 := by
  rw [fieldNNN_toNat]; omega

/-- An instruction that writes `I` and advances leaves every other part alone. -/
theorem frame_advance_setI (s : State) (a : Word) : UnchangedBut [.I, .pc] s (advance (s.setI a)) := by
  intro p hp
  cases p
  case I => simp at hp
  case pc => simp at hp
  all_goals rfl

/-- ANNN has one outcome: `I` is written and `pc` advances. -/
theorem exec_ldI (s : State) (nnn : Word) : exec (.ldI nnn) s = .next (advance (s.setI nnn)) := rfl

/-- Settles O43, from the row's decoding, the width of the address field, the one outcome of ANNN, and its frame. -/
theorem loadIndexSetsI : Obligations.LoadIndexSetsI :=
  ⟨decodes_ldI, fieldNNN_le, fun s nnn =>
    ⟨_, exec_ldI s nnn, by rw [advance_I, setI_I], by rw [advance_pc, npc, setI_pc], frame_advance_setI s nnn⟩⟩

end Sys2Proof.Machine
end

section
/-! Timer instructions (45_timer_keypad.md section 1): Fx07 (R230), Fx15 (R231), Fx18 (R232), and how every other
instruction stands to the two timers. -/

namespace Sys2Proof.Machine

variable (s : State)

/-! ## The outcomes of the three timer instructions and their frames -/

theorem exec_ldVxDt (x : Reg) : exec (.ldVxDt x) s = .next (advance (s.setV x s.dt)) := rfl

theorem exec_ldDtVx (x : Reg) : exec (.ldDtVx x) s = .next (advance (s.setDt s.V[x])) := rfl

theorem exec_ldStVx (x : Reg) : exec (.ldStVx x) s = .next (advance (s.setSt s.V[x])) := rfl

theorem frame_advance_setDt (b : Byte) : UnchangedBut [.dt, .pc] s (advance (s.setDt b)) := by
  intro p hp
  cases p
  case dt => simp at hp
  case pc => simp at hp
  all_goals rfl

theorem frame_setSt (b : Byte) : UnchangedBut [.st] s (s.setSt b) := by
  intro p hp
  cases p
  case st => simp at hp
  all_goals rfl

theorem frame_advance_setSt (b : Byte) : UnchangedBut [.st, .pc] s (advance (s.setSt b)) := by
  intro p hp
  cases p
  case st => simp at hp
  case pc => simp at hp
  all_goals rfl

/-- 46_host_operations.md R254. -/
theorem soundActive_iff : soundActive s = true ↔ 0 < s.st.toNat := by simp [soundActive]

/-! ## Every instruction and the timers -/

/-- What an instruction has to do with the timers: unless it is Fx15 it keeps `dt`, and whatever `st` held before it
shows in nothing but `st` after it. Every outcome but Fx18's carries the `st` it was given along; Fx18 overwrites it, so
there the two next states are the same. -/
theorem exec_timers (i : Instr) (v : Byte) : ∃ t, exec i s = .next t ∧ (setsDelayTimer i = false → t.dt = s.dt) ∧
    ∃ u, exec i (s.setSt v) = .next u ∧ UnchangedBut [.st] t u := by
  cases i with
  | ldDtVx x => exact ⟨_, exec_ldDtVx s x, nofun, _, exec_ldDtVx (s.setSt v) x, frame_setSt _ v⟩
  | ldStVx x => exact ⟨_, exec_ldStVx s x, fun _ => rfl, _, exec_ldStVx (s.setSt v) x, .refl _ _⟩
  | ret =>
    rcases Nat.eq_zero_or_pos s.sp.val with h | h
    · exact ⟨_, exec_ret_empty s h, fun _ => rfl, _, exec_ret_empty (s.setSt v) h, frame_setSt _ v⟩
    · exact ⟨_, exec_ret_held s h, fun _ => rfl, _, exec_ret_held (s.setSt v) h, frame_setSt _ v⟩
  | call nnn =>
    rcases Nat.lt_succ_iff_lt_or_eq.mp s.sp.isLt with h | h
    · exact ⟨_, exec_call_room s nnn h, fun _ => rfl, _, exec_call_room (s.setSt v) nnn h, frame_setSt _ v⟩
    · exact ⟨_, exec_call_full s nnn h, fun _ => rfl, _, exec_call_full (s.setSt v) nnn h, frame_setSt _ v⟩
  | ldBcd x =>
    rcases le_or_gt (s.I.toNat + 2) 4095 with h | h
    · exact ⟨_, exec_ldBcd_inBounds s x h, fun _ => rfl, _, exec_ldBcd_inBounds (s.setSt v) x h, frame_setSt _ v⟩
    · exact ⟨_, exec_ldBcd_outOfBounds s x h, fun _ => rfl, _, exec_ldBcd_outOfBounds (s.setSt v) x h, frame_setSt _ v⟩
  | storeRegs x =>
    rcases le_or_gt (s.I.toNat + x.val) 4095 with h | h
    · exact ⟨_, exec_storeRegs_inBounds s x h, fun _ => rfl, _, exec_storeRegs_inBounds (s.setSt v) x h,
        frame_setSt _ v⟩
    · exact ⟨_, exec_storeRegs_outOfBounds s x h, fun _ => rfl, _, exec_storeRegs_outOfBounds (s.setSt v) x h,
        frame_setSt _ v⟩
  | loadRegs x =>
    rcases le_or_gt (s.I.toNat + x.val) 4095 with h | h
    · exact ⟨_, exec_loadRegs_inBounds s x h, fun _ => rfl, _, exec_loadRegs_inBounds (s.setSt v) x h, frame_setSt _ v⟩
    · exact ⟨_, exec_loadRegs_outOfBounds s x h, fun _ => rfl, _, exec_loadRegs_outOfBounds (s.setSt v) x h,
        frame_setSt _ v⟩
  | drw x y n =>
    by_cases h : 0 < n ∧ 4095 < s.I.toNat + n - 1
    · exact ⟨_, exec_drw_outOfBounds s x y n h, fun _ => rfl, _, exec_drw_outOfBounds (s.setSt v) x y n h,
        frame_setSt _ v⟩
    · have hin : n = 0 ∨ s.I.toNat + n - 1 ≤ 4095 := by omega
      exact ⟨_, exec_drw_inBounds s x y n hin, fun _ => rfl, _, exec_drw_inBounds (s.setSt v) x y n hin,
        frame_setSt _ v⟩
  | skp x =>
    rcases Nat.lt_or_ge s.V[x].toNat 16 with h | h
    · exact ⟨_, exec_skp_key s x h, fun _ => rfl, _, exec_skp_key (s.setSt v) x h, frame_setSt _ v⟩
    · exact ⟨_, exec_skp_noKey s x h, fun _ => rfl, _, exec_skp_noKey (s.setSt v) x h, frame_setSt _ v⟩
  | sknp x =>
    rcases Nat.lt_or_ge s.V[x].toNat 16 with h | h
    · exact ⟨_, exec_sknp_key s x h, fun _ => rfl, _, exec_sknp_key (s.setSt v) x h, frame_setSt _ v⟩
    · exact ⟨_, exec_sknp_noKey s x h, fun _ => rfl, _, exec_sknp_noKey (s.setSt v) x h, frame_setSt _ v⟩
  | ldVxKey x =>
    cases h : firstPressed s.keys with
    | none => exact ⟨_, exec_ldVxKey_wait s x h, fun _ => rfl, _, exec_ldVxKey_wait (s.setSt v) x h, frame_setSt _ v⟩
    | some k =>
      exact ⟨_, exec_ldVxKey_take s x k h, fun _ => rfl, _, exec_ldVxKey_take (s.setSt v) x k h, frame_setSt _ v⟩
  | _ => exact ⟨_, rfl, fun _ => rfl, _, rfl, frame_setSt _ v⟩

/-- `dt` changes by no instruction but Fx15 (R230). -/
theorem exec_keeps_dt {i : Instr} {s t : State} (h : exec i s = .next t) (hi : setsDelayTimer i = false) :
    t.dt = s.dt := by
  obtain ⟨t', ht', hdt, -⟩ := exec_timers s i s.st
  cases ht'.symm.trans h
  exact hdt hi

/-- No instruction reads `st` (R232): run with another `st`, it answers a state that differs at most there. -/
theorem exec_ignores_st {i : Instr} {s t : State} (v : Byte) (h : exec i s = .next t) :
    ∃ u, exec i (s.setSt v) = .next u ∧ UnchangedBut [.st] t u := by
  obtain ⟨t', ht', -, hu⟩ := exec_timers s i v
  cases ht'.symm.trans h
  exact hu

/-! ## The statements -/

/-- Settles O53, from the row's decoding, the one outcome of Fx07 with its frame, and what every instruction keeps of
`dt`. -/
theorem readDelayTimerCopiesIt : Obligations.ReadDelayTimerCopiesIt := by
  refine ⟨decodes_ldVxDt, fun s x => ⟨_, exec_ldVxDt s x, ?_, rfl, frame_advance_setV s x s.dt⟩,
    fun i s t h hi => exec_keeps_dt h hi⟩
  rw [get_advance_setV, if_pos rfl]

/-- Settles O54, from the row's decoding and the one outcome of Fx15 with its frame. -/
theorem setDelayTimerCopiesTheRegister : Obligations.SetDelayTimerCopiesTheRegister :=
  ⟨decodes_ldDtVx, fun s x => ⟨_, exec_ldDtVx s x, rfl, rfl, frame_advance_setDt s s.V[x]⟩⟩

/-- Settles O55, from the row's decoding, the one outcome of Fx18 with its frame, the sound being active exactly while
`st` runs, and that every instruction ignores `st`. -/
theorem setSoundTimerCopiesTheRegister : Obligations.SetSoundTimerCopiesTheRegister :=
  ⟨decodes_ldStVx,
    fun s x => ⟨_, exec_ldStVx s x, rfl, soundActive_iff _, rfl, frame_advance_setSt s s.V[x]⟩,
    fun i s t v h => exec_ignores_st v h⟩

end Sys2Proof.Machine
end

section
/-! Host operations (46_host_operations.md): `set_keys` (R251), `sound_active` (R254) and
`framebuffer` (R255). -/

namespace Sys2Proof.Machine

variable (s : State)

/-! ## The framebuffer view -/

theorem length_framebufferBits : (framebufferBits s).length = 2048 := by
  simp [framebufferBits, Config.fbWidth, Config.fbHeight]

/-- Index `x + 64 y` names the pixel at column `x`, row `y`: the view's remainder and quotient by 64 give
the two coordinates back. -/
theorem getElem?_framebufferBits (x y : Nat) (hx : x < 64) (hy : y < 32) :
    (framebufferBits s)[x + 64 * y]? = some (fbRead s.fb x y) := by
  have hindex : x + 64 * y < 64 * 32 := by omega
  have hcolumn : (x + 64 * y) % 64 = x := by omega
  have hrow : (x + 64 * y) / 64 = y := by omega
  rw [framebufferBits, List.getElem?_map, List.getElem?_range hindex, Option.map_some, hcolumn, hrow]

/-! ## What replies show of the sound timer -/

/-- Every step, a faulting one included, answers a next state (log entry 4). -/
theorem step_answers_next : ∃ t, step s = .next t := by
  rcases step_cases s with ⟨r, -, h⟩ | ⟨-, -, h⟩ | ⟨-, -, h⟩ | ⟨-, w, i, -, -, h⟩
  · exact ⟨_, h⟩
  · exact ⟨_, h⟩
  · exact ⟨_, h⟩
  · obtain ⟨t, ht, -⟩ := exec_timers s i s.st
    exact ⟨t, h.trans ht⟩

/-- So the host is never told more of a step than that it was taken. -/
theorem reply_step : (hostOpRunning .step s).2 = .done := by
  obtain ⟨t, ht⟩ := step_answers_next s
  simp only [hostOpRunning, ht]

/-- The reply to `load_rom` depends on the ROM alone (R250). -/
theorem reply_loadRom (rom : List Byte) :
    (hostOpRunning (.loadRom rom) s).2 = if romFits rom then .done else .refused .romTooLong := by
  rw [hostOpRunning, apply_ite Prod.snd]

/-- `sound_active()` tells two values of `st` apart only by whether they are 0. -/
theorem soundActive_setSt (v : Byte) (h : 0 < v.toNat ↔ 0 < s.st.toNat) : soundActive (s.setSt v) = soundActive s := by
  rw [Bool.eq_iff_iff, soundActive_iff, soundActive_iff, setSt_st, h]

/-- Of the eight replies only that of `sound_active()` looks at `st`; each of the others is a constant, a matter of the
ROM, or read from parts that `st` is not. -/
theorem reply_setSt (op : HostOp) (v : Byte) (h : 0 < v.toNat ↔ 0 < s.st.toNat) :
    (hostOpRunning op (s.setSt v)).2 = (hostOpRunning op s).2 := by
  cases op with
  | loadRom rom => rw [reply_loadRom, reply_loadRom]
  | step => rw [reply_step, reply_step]
  | soundActive => exact congrArg Reply.bit (soundActive_setSt s v h)
  | setKeys k => rfl
  | snapshotPrevious => rfl
  | tickTimers => rfl
  | framebuffer => rfl
  | status => rfl

/-! ## The statements -/

/-- Settles O27, from the length of the view and the pixel at each index; a query hands the machine back as it is. -/
theorem framebufferViewIsEveryPixelInIndexOrder : Obligations.FramebufferViewIsEveryPixelInIndexOrder :=
  fun s => ⟨_, rfl, length_framebufferBits s, getElem?_framebufferBits s⟩

/-- Settles O23, from the frame of `set_keys`; the key states are the ones given. -/
theorem setKeysReplacesTheKeyStates : Obligations.SetKeysReplacesTheKeyStates :=
  fun k s => ⟨_, rfl, fun _ => rfl, frame_setKeys s k⟩

/-- Settles O26, from the meaning of `sound_active()` and the reply of every operation under a change of `st`. -/
theorem soundIsActiveExactlyWhileTheSoundTimerRuns : Obligations.SoundIsActiveExactlyWhileTheSoundTimerRuns :=
  ⟨fun s => ⟨_, rfl, soundActive_iff s⟩, fun op s v h => reply_setSt s op v h⟩

end Sys2Proof.Machine
end

section
/-! The encoder against the decoder (30_encoding.md): what the fields of each format's word are, the instruction that a
row gives a word, and the agreement of decoder, encoder and opcode map. -/

namespace Sys2Proof.Machine

/-! ## The fields of a formatted word (R91, R92) -/

theorem fieldNNN_formatNNN (op : Nat) {nnn : Word} (h : fitsAddress nnn = true) :
    fieldNNN (formatNNN op nnn) = nnn := by
  have hn : nnn.toNat < 4096 := of_decide_eq_true h
  apply BitVec.eq_of_toNat_eq
  rw [fieldNNN_toNat, formatNNN, BitVec.toNat_ofNat]; omega

theorem fieldX_formatXNN (op : Nat) (x : Reg) (nn : Byte) : fieldX (formatXNN op x nn) = x := by
  have := x.isLt; have := nn.isLt
  apply Fin.ext
  rw [fieldX_val, formatXNN, BitVec.toNat_ofNat]; omega

theorem fieldNN_formatXNN (op : Nat) (x : Reg) (nn : Byte) : fieldNN (formatXNN op x nn) = nn := by
  have := nn.isLt
  apply BitVec.eq_of_toNat_eq
  rw [fieldNN_toNat, formatXNN, BitVec.toNat_ofNat]; omega

theorem fieldX_formatXYN (op : Nat) (x y : Reg) {n : Nat} (hn : n < 16) : fieldX (formatXYN op x y n) = x := by
  have := x.isLt; have := y.isLt
  apply Fin.ext
  rw [fieldX_val, formatXYN, BitVec.toNat_ofNat]; omega

theorem fieldY_formatXYN (op : Nat) (x y : Reg) {n : Nat} (hn : n < 16) : fieldY (formatXYN op x y n) = y := by
  have := y.isLt
  apply Fin.ext
  rw [fieldY_val, formatXYN, BitVec.toNat_ofNat]; omega

theorem fieldN_formatXYN (op : Nat) (x y : Reg) {n : Nat} (hn : n < 16) : fieldN (formatXYN op x y n) = n := by
  rw [fieldN_eq, formatXYN, BitVec.toNat_ofNat]; omega

theorem fieldX_formatXS (op : Nat) (x : Reg) {sub : Nat} (hs : sub < 256) : fieldX (formatXS op x sub) = x := by
  have := x.isLt
  apply Fin.ext
  rw [fieldX_val, formatXS, BitVec.toNat_ofNat]; omega

/-! ## The instruction a row gives a word -/

/-- The instruction of the same row as `i` whose operands are the fields of the word (R92, R93). -/
def withFields (w : Word) : Instr → Instr
  | .cls => .cls
  | .ret => .ret
  | .jp _ => .jp (fieldNNN w)
  | .call _ => .call (fieldNNN w)
  | .seImm _ _ => .seImm (fieldX w) (fieldNN w)
  | .sneImm _ _ => .sneImm (fieldX w) (fieldNN w)
  | .seReg _ _ => .seReg (fieldX w) (fieldY w)
  | .ldImm _ _ => .ldImm (fieldX w) (fieldNN w)
  | .addImm _ _ => .addImm (fieldX w) (fieldNN w)
  | .ldReg _ _ => .ldReg (fieldX w) (fieldY w)
  | .or _ _ => .or (fieldX w) (fieldY w)
  | .and _ _ => .and (fieldX w) (fieldY w)
  | .xor _ _ => .xor (fieldX w) (fieldY w)
  | .addReg _ _ => .addReg (fieldX w) (fieldY w)
  | .sub _ _ => .sub (fieldX w) (fieldY w)
  | .shr _ _ => .shr (fieldX w) (fieldY w)
  | .subn _ _ => .subn (fieldX w) (fieldY w)
  | .shl _ _ => .shl (fieldX w) (fieldY w)
  | .sneReg _ _ => .sneReg (fieldX w) (fieldY w)
  | .ldI _ => .ldI (fieldNNN w)
  | .jpV0 _ => .jpV0 (fieldNNN w)
  | .rnd _ _ => .rnd (fieldX w) (fieldNN w)
  | .drw _ _ _ => .drw (fieldX w) (fieldY w) (fieldN w)
  | .skp _ => .skp (fieldX w)
  | .sknp _ => .sknp (fieldX w)
  | .ldVxDt _ => .ldVxDt (fieldX w)
  | .ldVxKey _ => .ldVxKey (fieldX w)
  | .ldDtVx _ => .ldDtVx (fieldX w)
  | .ldStVx _ => .ldStVx (fieldX w)
  | .addI _ => .addI (fieldX w)
  | .ldBcd _ => .ldBcd (fieldX w)
  | .storeRegs _ => .storeRegs (fieldX w)
  | .loadRegs _ => .loadRegs (fieldX w)

/-- A word that an instruction's row selects decodes to that row's instruction, with the word's own fields. -/
theorem decode_of_row (w : Word) (i : Instr) (h : (opcodeRow i).selects w = true) :
    decode w = .instr (withFields w i) := by
  have hm : w &&& (opcodeRow i).mask = (opcodeRow i).value := of_decide_eq_true h
  exact match i with
  | .cls => decodes_cls w hm
  | .ret => decodes_ret w hm
  | .jp _ => decodes_jp w hm
  | .call _ => decodes_call w hm
  | .seImm _ _ => decodes_seImm w hm
  | .sneImm _ _ => decodes_sneImm w hm
  | .seReg _ _ => decodes_seReg w hm
  | .ldImm _ _ => decodes_ldImm w hm
  | .addImm _ _ => decodes_addImm w hm
  | .ldReg _ _ => decodes_ldReg w hm
  | .or _ _ => decodes_or w hm
  | .and _ _ => decodes_and w hm
  | .xor _ _ => decodes_xor w hm
  | .addReg _ _ => decodes_addReg w hm
  | .sub _ _ => decodes_sub w hm
  | .shr _ _ => decodes_shr w hm
  | .subn _ _ => decodes_subn w hm
  | .shl _ _ => decodes_shl w hm
  | .sneReg _ _ => decodes_sneReg w hm
  | .ldI _ => decodes_ldI w hm
  | .jpV0 _ => decodes_jpV0 w hm
  | .rnd _ _ => decodes_rnd w hm
  | .drw _ _ _ => decodes_drw w hm
  | .skp _ => decodes_skp w hm
  | .sknp _ => decodes_sknp w hm
  | .ldVxDt _ => decodes_ldVxDt w hm
  | .ldVxKey _ => decodes_ldVxKey w hm
  | .ldDtVx _ => decodes_ldDtVx w hm
  | .ldStVx _ => decodes_ldStVx w hm
  | .addI _ => decodes_addI w hm
  | .ldBcd _ => decodes_ldBcd w hm
  | .storeRegs _ => decodes_storeRegs w hm
  | .loadRegs _ => decodes_loadRegs w hm

/-- What the decoder answers holds the fields of the word it read. -/
theorem eq_withFields_of_decode {w : Word} {i : Instr} (h : decode w = .instr i) : i = withFields w i :=
  Decoded.instr.inj (h.symm.trans (decode_of_row w i (selects_of_decode w i h)))

/-- The word of a well-formed instruction is selected by its row. -/
theorem selects_encode : ∀ i : Instr, Laws.FixedBits.Statement i
  | .cls => Laws.FixedBits.cls
  | .ret => Laws.FixedBits.ret
  | .jp nnn => Laws.FixedBits.jp nnn
  | .call nnn => Laws.FixedBits.call nnn
  | .seImm x nn => Laws.FixedBits.seImm x nn
  | .sneImm x nn => Laws.FixedBits.sneImm x nn
  | .seReg x y => Laws.FixedBits.seReg x y
  | .ldImm x nn => Laws.FixedBits.ldImm x nn
  | .addImm x nn => Laws.FixedBits.addImm x nn
  | .ldReg x y => Laws.FixedBits.ldReg x y
  | .or x y => Laws.FixedBits.or x y
  | .and x y => Laws.FixedBits.and x y
  | .xor x y => Laws.FixedBits.xor x y
  | .addReg x y => Laws.FixedBits.addReg x y
  | .sub x y => Laws.FixedBits.sub x y
  | .shr x y => Laws.FixedBits.shr x y
  | .subn x y => Laws.FixedBits.subn x y
  | .shl x y => Laws.FixedBits.shl x y
  | .sneReg x y => Laws.FixedBits.sneReg x y
  | .ldI nnn => Laws.FixedBits.ldI nnn
  | .jpV0 nnn => Laws.FixedBits.jpV0 nnn
  | .rnd x nn => Laws.FixedBits.rnd x nn
  | .drw x y n => Laws.FixedBits.drw x y n
  | .skp x => Laws.FixedBits.skp x
  | .sknp x => Laws.FixedBits.sknp x
  | .ldVxDt x => Laws.FixedBits.ldVxDt x
  | .ldVxKey x => Laws.FixedBits.ldVxKey x
  | .ldDtVx x => Laws.FixedBits.ldDtVx x
  | .ldStVx x => Laws.FixedBits.ldStVx x
  | .addI x => Laws.FixedBits.addI x
  | .ldBcd x => Laws.FixedBits.ldBcd x
  | .storeRegs x => Laws.FixedBits.storeRegs x
  | .loadRegs x => Laws.FixedBits.loadRegs x

/-- The operands of a well-formed instruction are the fields of its word, format by format. -/
theorem withFields_encode (i : Instr) (h : wellFormed i = true) : withFields (encode i) i = i := by
  cases i
  case cls | ret => rfl
  case jp nnn | call nnn | ldI nnn | jpV0 nnn => rw [withFields, encode, fieldNNN_formatNNN _ h]
  case seImm x nn | sneImm x nn | ldImm x nn | addImm x nn | rnd x nn =>
    rw [withFields, encode, fieldX_formatXNN, fieldNN_formatXNN]
  case drw x y n =>
    have hn : n < 16 := of_decide_eq_true h
    rw [withFields, encode, fieldX_formatXYN _ _ _ hn, fieldY_formatXYN _ _ _ hn, fieldN_formatXYN _ _ _ hn]
  case seReg x y | ldReg x y | or x y | and x y | xor x y | addReg x y | sub x y | shr x y | subn x y | shl x y
      | sneReg x y =>
    rw [withFields, encode, fieldX_formatXYN _ _ _ (by decide), fieldY_formatXYN _ _ _ (by decide)]
  all_goals rw [withFields, encode, fieldX_formatXS _ _ (by decide)]

theorem wellFormed_withFields (w : Word) (i : Instr) : wellFormed (withFields w i) = true := by
  have hNNN : fitsAddress (fieldNNN w) = true := decide_eq_true (Nat.lt_succ_of_le (fieldNNN_le w))
  cases i
  case jp | call | ldI | jpV0 => exact hNNN
  case drw => exact decide_eq_true (fieldN_lt w)
  all_goals rfl

/-- Encoding a selected word's fields gives the word back, but for the low nibble where the row ignores it (R96). -/
theorem encode_withFields_toNat (w : Word) (i : Instr) (h : (opcodeRow i).selects w = true) :
    (encode (withFields w i)).toNat
      = if w.toNat / 4096 = 5 ∨ w.toNat / 4096 = 9 then w.toNat / 16 * 16 else w.toNat := by
  have hX := fieldX_val w; have hY := fieldY_val w; have hN := fieldN_eq w
  cases i
  case cls | ret =>
    have hw := of_decide_eq_true h
    rw [opcodeRow, and_FFFF] at hw
    rw [hw]; rfl
  case jp | call | ldI | jpV0 =>
    have hrow := (selects_F000 _ w _ (by decide)).mp h
    rw [withFields, encode, formatNNN_toNat _ _ (by decide) (Nat.lt_succ_of_le (fieldNNN_le w)), fieldNNN_toNat]
    simp only [BitVec.toNat_ofNat] at hrow
    rw [if_neg (by omega)]; omega
  case seImm | sneImm | ldImm | addImm | rnd =>
    have hrow := (selects_F000 _ w _ (by decide)).mp h
    rw [withFields, encode, formatXNN_toNat _ _ _ (by decide), fieldNN_toNat]
    simp only [BitVec.toNat_ofNat] at hrow
    rw [if_neg (by omega)]; omega
  case seReg | sneReg =>
    have hrow := (selects_F000 _ w _ (by decide)).mp h
    rw [withFields, encode, formatXYN_toNat _ _ _ _ (by decide) (by decide)]
    simp only [BitVec.toNat_ofNat] at hrow
    rw [if_pos (by omega)]; omega
  case drw =>
    have hrow := (selects_F000 _ w _ (by decide)).mp h
    rw [withFields, encode, formatXYN_toNat _ _ _ _ (by decide) (fieldN_lt w)]
    simp only [BitVec.toNat_ofNat] at hrow
    rw [if_neg (by omega)]; omega
  case ldReg | or | and | xor | addReg | sub | shr | subn | shl =>
    have hrow := (selects_F00F _ w _ (by decide)).mp h
    rw [withFields, encode, formatXYN_toNat _ _ _ _ (by decide) (by decide)]
    simp only [BitVec.toNat_ofNat] at hrow
    rw [if_neg (by omega)]; omega
  all_goals
    have hrow := (selects_F0FF _ w _ (by decide)).mp h
    rw [withFields, encode, formatXS_toNat _ _ _ (by decide) (by decide)]
    simp only [BitVec.toNat_ofNat] at hrow
    rw [if_neg (by omega)]; omega

/-! ## Decoder, encoder and opcode map -/

theorem decode_encode {i : Instr} (h : wellFormed i = true) : decode (encode i) = .instr i := by
  rw [decode_of_row _ i (selects_encode i h), withFields_encode i h]

theorem wellFormed_of_decode {w : Word} {i : Instr} (h : decode w = .instr i) : wellFormed i = true :=
  eq_withFields_of_decode h ▸ wellFormed_withFields w i

theorem encode_of_decode_toNat {w : Word} {i : Instr} (h : decode w = .instr i) :
    (encode i).toNat = if w.toNat / 4096 = 5 ∨ w.toNat / 4096 = 9 then w.toNat / 16 * 16 else w.toNat := by
  rw [eq_withFields_of_decode h]
  exact encode_withFields_toNat w i (selects_of_decode w i h)

/-- Rows that select one word agree where their masks overlap, and so are one row. -/
theorem row_unique {w : Word} {r q : OpcodeRow} (hr : r ∈ opcodeMap) (hq : q ∈ opcodeMap)
    (hrw : r.selects w = true) (hqw : q.selects w = true) : r = q := by
  have er : w &&& r.mask = r.value := of_decide_eq_true hrw
  have eq : w &&& q.mask = q.value := of_decide_eq_true hqw
  apply opcodeMap_disjoint r hr q hq
  rw [← er, ← eq, BitVec.and_assoc, BitVec.and_assoc, BitVec.and_comm r.mask]

/-- The row of what is decoded is the one row that selects the word. -/
theorem selects_iff_of_decode {w : Word} {i : Instr} (h : decode w = .instr i) {r : OpcodeRow} (hr : r ∈ opcodeMap) :
    r.selects w = true ↔ r = opcodeRow i :=
  ⟨fun hrw => row_unique hr (opcodeRow_mem i) hrw (selects_of_decode w i h), fun e => e ▸ selects_of_decode w i h⟩

/-- A word is an unknown opcode exactly when no row selects it (R100). -/
theorem decode_unknown_iff (w : Word) : decode w = .unknownOpcode w ↔ ∀ r ∈ opcodeMap, r.selects w = false := by
  constructor
  · intro hu r hr
    by_contra hs
    obtain ⟨i, hi⟩ := decode_of_selects w r hr (by simpa using hs)
    cases hu.symm.trans hi
  · intro hnone
    rcases decode_total w with hu | ⟨i, hi⟩
    · exact hu
    · cases (hnone _ (opcodeRow_mem i)).symm.trans (selects_of_decode w i hi)

/-! ## The statements -/

/-- Settles O2: a well-formed instruction's row selects its word, and its operands are the word's fields. -/
theorem decodeOfEncodeIsTheInstruction : Obligations.DecodeOfEncodeIsTheInstruction :=
  fun _ h => decode_encode h

/-- Settles O3: what is decoded holds the word's fields, and the row's format puts them back in place. -/
theorem encodeOfDecodeIsTheWordButForIgnoredNibbles : Obligations.EncodeOfDecodeIsTheWordButForIgnoredNibbles :=
  fun _ _ h => ⟨wellFormed_of_decode h, encode_of_decode_toNat h⟩

/-- Settles O4, from the uniqueness of the selecting row and the totality of the decoder. -/
theorem decoderAndOpcodeMapSelectTheSame : Obligations.DecoderAndOpcodeMapSelectTheSame :=
  ⟨rfl, fun w => ⟨fun i h => ⟨opcodeRow_mem i, fun _ hr => selects_iff_of_decode h hr⟩, decode_unknown_iff w,
    decode_total w⟩⟩

/-- Settles O1, by decoding each of the words. -/
theorem wordsOfEachFormatDecodeAsTheirRows : Obligations.WordsOfEachFormatDecodeAsTheirRows := by
  unfold Obligations.WordsOfEachFormatDecodeAsTheirRows
  decide

end Sys2Proof.Machine
end

section
/-! What `exec` answers, said once: the fault of the table of 60_exceptions.md section 2, or one next state. Then the
frame of each shape that next state takes. -/

namespace Sys2Proof.Machine

variable (s : State)

theorem sp_le : s.sp.val ≤ 16 := Nat.le_of_lt_succ s.sp.isLt

theorem sp_pred_lt : s.sp.val - 1 < 16 := by have := sp_le s; omega

/-- The state an instruction leaves when it raises no fault, with no check left in it. Where a fault is raised instead
(`exec_outcome`), its value has no meaning. -/
def completed (i : Instr) (s : State) : State :=
  match i with
  | .cls => advance (s.setFb clearFb)
  | .ret => (s.setStack s.stack ⟨s.sp.val - 1, Nat.lt_of_le_of_lt (Nat.sub_le _ _) s.sp.isLt⟩).setPc
      (s.stack[s.sp.val - 1]'(sp_pred_lt s))
  | .jp nnn => s.setPc nnn
  | .call nnn => (s.setStack (s.stack.setIfInBounds s.sp.val (npc s)) ⟨min (s.sp.val + 1) 16,
      Nat.lt_succ_of_le (Nat.min_le_right _ _)⟩).setPc nnn
  | .seImm x nn => skipIf (s.V[x] == nn) s
  | .sneImm x nn => skipIf (s.V[x] != nn) s
  | .seReg x y => skipIf (s.V[x] == s.V[y]) s
  | .ldImm x nn => advance (s.setV x nn)
  | .addImm x nn => advance (s.setV x (s.V[x] + nn))
  | .ldReg x y => advance (s.setV x s.V[y])
  | .or x y => advance (s.setV x (s.V[x] ||| s.V[y]))
  | .and x y => advance (s.setV x (s.V[x] &&& s.V[y]))
  | .xor x y => advance (s.setV x (s.V[x] ^^^ s.V[y]))
  | .addReg x y => advance (writeResultThenFlag x (s.V[x] + s.V[y]) (carry s.V[x] s.V[y]) s)
  | .sub x y => advance (writeResultThenFlag x (s.V[x] - s.V[y]) (notBorrow s.V[x] s.V[y]) s)
  | .shr x y => advance (writeResultThenFlag x (s.V[y] >>> 1) (shiftedOutRight s.V[y]) s)
  | .subn x y => advance (writeResultThenFlag x (s.V[y] - s.V[x]) (notBorrow s.V[y] s.V[x]) s)
  | .shl x y => advance (writeResultThenFlag x (s.V[y] <<< 1) (shiftedOutLeft s.V[y]) s)
  | .sneReg x y => skipIf (s.V[x] != s.V[y]) s
  | .ldI nnn => advance (s.setI nnn)
  | .jpV0 nnn => s.setPc (indexedTarget nnn s)
  | .rnd x nn => advance ((s.setV x (Config.rndDraw s.draws &&& nn)).consumeDraw)
  | .drw x y n => advance ((s.setFb (drawn s x y n).fb).setV flagReg (flagByte (drawn s x y n).collision))
  | .skp x => skipIf (s.keys[s.V[x].toNat]? == some true) s
  | .sknp x => skipIf (s.keys[s.V[x].toNat]? == some false) s
  | .ldVxDt x => advance (s.setV x s.dt)
  | .ldVxKey x =>
    match firstPressed s.keys with
    | none => s.setRunState .waitingForKey
    | some k => advance (((s.setV x (BitVec.ofNat 8 k.val)).setKeys (s.keys.set k false)).setRunState .running)
  | .ldDtVx x => advance (s.setDt s.V[x])
  | .ldStVx x => advance (s.setSt s.V[x])
  | .addI x => advance (s.setI (s.I + s.V[x].setWidth 16))
  | .ldBcd x => advance (s.setMem (Memory.writeBytes s.mem s.I.toNat (bcdDigits s.V[x])))
  | .storeRegs x => advance (s.setMem (Memory.writeBytes s.mem s.I.toNat (regBlock s x)))
  | .loadRegs x => advance (s.setRegs (Memory.readBytes s.mem s.I.toNat (x.val + 1)))

theorem completed_keyWait_none (x : Reg) (h : firstPressed s.keys = none) :
    completed (.ldVxKey x) s = s.setRunState .waitingForKey := by
  simp only [completed, h]

theorem completed_keyWait_some (x k : Reg) (h : firstPressed s.keys = some k) : completed (.ldVxKey x) s
    = advance (((s.setV x (BitVec.ofNat 8 k.val)).setKeys (s.keys.set k false)).setRunState .running) := by
  simp only [completed, h]

/-- The two outcomes of an Fx0A, where it does not matter which key was found. -/
theorem completed_keyWait_cases (x : Reg) : completed (.ldVxKey x) s = s.setRunState .waitingForKey ∨
    ∃ b ks, completed (.ldVxKey x) s = advance (((s.setV x b).setKeys ks).setRunState .running) := by
  cases h : firstPressed s.keys with
  | none => exact .inl (completed_keyWait_none s x h)
  | some k => exact .inr ⟨_, _, completed_keyWait_some s x k h⟩

/-- `info` is kept modulo 65536, so the address after a call may be computed in 16 bits (60_exceptions.md R275). -/
theorem raise_npc (c : Fault) (w : Word) : raise c w (npc s).toNat s = raise c w (s.pc.toNat + 2) s := by
  have h : BitVec.ofNat 16 (npc s).toNat = BitVec.ofNat 16 (s.pc.toNat + 2) := by
    apply BitVec.eq_of_toNat_eq
    simp only [npc, BitVec.toNat_add, BitVec.toNat_ofNat]; omega
  simp only [raise, h]

theorem completed_call_room (nnn : Word) (h : s.sp.val < 16) : completed (.call nnn) s
    = (s.setStack (s.stack.set s.sp.val (npc s) h) ⟨s.sp.val + 1, Nat.succ_lt_succ h⟩).setPc nnn := by
  have hsp : min (s.sp.val + 1) 16 = s.sp.val + 1 := by omega
  have hset : s.stack.setIfInBounds s.sp.val (npc s) = s.stack.set s.sp.val (npc s) h := by
    apply Vector.ext
    intro j hj
    rw [Vector.getElem_setIfInBounds hj, Vector.getElem_set]
  simp only [completed, hset, hsp]

theorem sp_lt_of_call (nnn : Word) (h : faultTable (.call nnn) s = none) : s.sp.val < 16 := by
  have hsp := sp_le s
  have hne : s.sp.val ≠ 16 := fun e => by simp [faultTable, e] at h
  omega

/-- All `exec` can do (40_step_cycle.md section 3): raise the tabled fault, or complete the instruction. -/
theorem exec_outcome (i : Instr) :
    (∃ c info, faultTable i s = some (c, info) ∧ exec i s = raise c (encode i) info s) ∨
    (faultTable i s = none ∧ exec i s = .next (completed i s)) := by
  cases i with
  | ret =>
    rcases Nat.eq_zero_or_pos s.sp.val with h | h
    · exact .inl ⟨_, _, if_pos h, exec_ret_empty s h⟩
    · exact .inr ⟨if_neg (by omega), exec_ret_held s h⟩
  | call nnn =>
    rcases Nat.lt_or_eq_of_le (sp_le s) with h | h
    · exact .inr ⟨if_neg (by omega), (exec_call_room s nnn h).trans (by rw [completed_call_room s nnn h])⟩
    · exact .inl ⟨_, _, if_pos h, (exec_call_full s nnn h).trans (raise_npc s _ _)⟩
  | ldBcd x =>
    rcases le_or_gt (s.I.toNat + 2) 4095 with h | h
    · exact .inr ⟨if_neg (by omega), exec_ldBcd_inBounds s x h⟩
    · exact .inl ⟨_, _, if_pos h, exec_ldBcd_outOfBounds s x h⟩
  | storeRegs x =>
    rcases le_or_gt (s.I.toNat + x.val) 4095 with h | h
    · exact .inr ⟨if_neg (by omega), exec_storeRegs_inBounds s x h⟩
    · exact .inl ⟨_, _, if_pos h, exec_storeRegs_outOfBounds s x h⟩
  | loadRegs x =>
    rcases le_or_gt (s.I.toNat + x.val) 4095 with h | h
    · exact .inr ⟨if_neg (by omega), exec_loadRegs_inBounds s x h⟩
    · exact .inl ⟨_, _, if_pos h, exec_loadRegs_outOfBounds s x h⟩
  | drw x y n =>
    by_cases h : 0 < n ∧ 4095 < s.I.toNat + n - 1
    · exact .inl ⟨_, _, if_pos h, exec_drw_outOfBounds s x y n h⟩
    · exact .inr ⟨if_neg h, exec_drw_inBounds s x y n (by omega)⟩
  | skp x =>
    rcases Nat.lt_or_ge s.V[x].toNat 16 with h | h
    · exact .inr ⟨if_neg (by omega), by rw [exec_skp_key s x h, completed, Vector.getElem?_eq_getElem h]; rfl⟩
    · exact .inl ⟨_, _, if_pos h, exec_skp_noKey s x h⟩
  | sknp x =>
    rcases Nat.lt_or_ge s.V[x].toNat 16 with h | h
    · exact .inr ⟨if_neg (by omega), by rw [exec_sknp_key s x h, completed, Vector.getElem?_eq_getElem h]; rfl⟩
    · exact .inl ⟨_, _, if_pos h, exec_sknp_noKey s x h⟩
  | ldVxKey x =>
    cases h : firstPressed s.keys with
    | none => exact .inr ⟨rfl, (exec_ldVxKey_wait s x h).trans (by rw [completed_keyWait_none s x h])⟩
    | some k => exact .inr ⟨rfl, (exec_ldVxKey_take s x k h).trans (by rw [completed_keyWait_some s x k h])⟩
  | _ => exact .inr ⟨rfl, rfl⟩

theorem exec_raises {i : Instr} {c : Fault} {info : Nat} (h : faultTable i s = some (c, info)) :
    exec i s = .next (s.setFault ⟨c, s.pc, encode i, BitVec.ofNat 16 info⟩) := by
  rcases exec_outcome s i with ⟨c', info', h', he⟩ | ⟨h', -⟩
  · cases h.symm.trans h'; exact he
  · cases h.symm.trans h'

theorem exec_completes {i : Instr} (h : faultTable i s = none) : exec i s = .next (completed i s) := by
  rcases exec_outcome s i with ⟨c, info, h', -⟩ | ⟨-, he⟩
  · cases h.symm.trans h'
  · exact he

/-- Only the eight instructions of the table raise a fault (60_exceptions.md R270). -/
theorem faultTable_of_not_mayFault {i : Instr} (h : mayFault i = false) : faultTable i s = none := by
  cases i
  case ret | call | ldBcd | storeRegs | loadRegs | drw | skp | sknp => cases h
  all_goals rfl

/-! ## Frames -/

theorem frame_advance : UnchangedBut [.pc] s (advance s) := frame_setPc s _

theorem frame_advance_setFb (f : Framebuffer) : UnchangedBut [.fb, .pc] s (advance (s.setFb f)) := by
  intro p hp
  cases p
  case fb => simp at hp
  case pc => simp at hp
  all_goals rfl

theorem frame_advance_setFb_setV (f : Framebuffer) (x : Reg) (b : Byte) :
    UnchangedBut [.fb, .V x, .pc] s (advance ((s.setFb f).setV x b)) := by
  intro p hp
  cases p
  case V r =>
    have hr : r ≠ x := fun e => hp (by simp [e])
    have := get_advance_setV (s.setFb f) x r b
    simpa [samePart, hr] using this
  case fb => simp at hp
  case pc => simp at hp
  all_goals rfl

theorem frame_advance_setV_consumeDraw (x : Reg) (b : Byte) :
    UnchangedBut [.V x, .pc, .draws] s (advance ((s.setV x b).consumeDraw)) := by
  intro p hp
  cases p
  case V r =>
    have hr : r ≠ x := fun e => hp (by simp [e])
    have := setV_get s x b r
    simpa [samePart, hr] using this
  case pc => simp at hp
  case draws => simp at hp
  all_goals rfl

theorem frame_advance_setRegs (x : Reg) (bs : List Byte) (hn : bs.length = x.val + 1) :
    UnchangedBut (.pc :: regsUpTo x) s (advance (s.setRegs bs)) := by
  intro p hp
  cases p
  case V r =>
    have hr : x < r := by simpa [regsUpTo] using hp
    have hlen : bs.length ≤ r.val := by rw [hn]; exact hr
    have := setRegs_get s bs r
    rwa [List.getD_eq_default _ _ hlen] at this
  case pc => simp at hp
  all_goals simp only [samePart, advance_I, advance_stack, advance_sp, advance_dt, advance_st, advance_keys,
    advance_prevKeys, advance_runState, advance_fault, advance_mem, advance_fb, advance_draws, setRegs_I,
    setRegs_stack, setRegs_sp, setRegs_dt, setRegs_st, setRegs_keys, setRegs_prevKeys, setRegs_runState,
    setRegs_fault, setRegs_mem, setRegs_fb, setRegs_draws]

theorem frame_setRunState (r : RunState) : UnchangedBut [.runState] s (s.setRunState r) := by
  intro p hp
  cases p
  case runState => simp at hp
  all_goals rfl

theorem frame_keyTaken (x : Reg) (b : Byte) (ks : Vector Bool 16) (r : RunState) :
    UnchangedBut [.V x, .keys, .runState, .pc] s (advance (((s.setV x b).setKeys ks).setRunState r)) := by
  intro p hp
  cases p
  case V r =>
    have hr : r ≠ x := fun e => hp (by simp [e])
    have := setV_get s x b r
    simpa [samePart, hr] using this
  case keys => simp at hp
  case runState => simp at hp
  case pc => simp at hp
  all_goals rfl

theorem frame_popped (n : Fin 17) (a : Word) : UnchangedBut [.sp, .pc] s ((s.setStack s.stack n).setPc a) := by
  intro p hp
  cases p
  case sp => simp at hp
  case pc => simp at hp
  all_goals rfl

theorem frame_pushed (k : Fin 16) (v a : Word) (n : Fin 17) :
    UnchangedBut [.stackEntry k, .sp, .pc] s ((s.setStack (s.stack.set k.val v k.isLt) n).setPc a) := by
  intro p hp
  cases p
  case stackEntry j =>
    have hj : k.val ≠ j.val := fun e => hp (by simp [Fin.ext e.symm])
    simp [samePart, hj]
  case sp => simp at hp
  case pc => simp at hp
  all_goals rfl

/-! ## What every completed instruction leaves -/

/-- A part that an instruction changed is one its frame lists. -/
theorem UnchangedBut.mem_of_changed {L : List Part} {s t : State} (hf : UnchangedBut L s t) {p : Part}
    (h : ¬ samePart s t p) : p ∈ L := by
  by_contra hp
  exact h (hf p hp)

/-- The parts listed in a frame may be changed by an instruction, and so any part that did change may be. -/
theorem UnchangedBut.mayChange {L : List Part} {s t : State} {i : Instr} (hf : UnchangedBut L s t)
    (hL : ∀ q ∈ L, mayChange i q = true) {p : Part} (h : ¬ samePart s t p) : mayChange i p = true :=
  hL p (hf.mem_of_changed h)

theorem mem_cells {p : Part} {a n : Nat} (h : p ∈ cells a n) : ∃ b, p = .mem b := by
  simp only [cells, List.mem_map] at h
  obtain ⟨k, -, rfl⟩ := h
  exact ⟨_, rfl⟩

theorem mem_regsUpTo {p : Part} {x : Reg} (h : p ∈ regsUpTo x) : ∃ r ≤ x, p = .V r := by
  simp only [regsUpTo, List.mem_map, List.mem_filter, decide_eq_true_eq] at h
  obtain ⟨r, ⟨-, hr⟩, rfl⟩ := h
  exact ⟨r, hr, rfl⟩

/-- The latch is written by `raise` alone (R126). -/
theorem completed_fault (i : Instr) : (completed i s).fault = s.fault := by
  cases i with
  | ldVxKey x =>
    rcases completed_keyWait_cases s x with h | ⟨b, ks, h⟩
    · rw [h]; rfl
    · rw [h]; rfl
  | _ => rfl

/-- A completed instruction changes only what 10_state.md lets it change. -/
theorem completed_mayChange {i : Instr} (hno : faultTable i s = none) {p : Part}
    (h : ¬ samePart s (completed i s) p) : mayChange i p = true := by
  cases i with
  | cls => exact (frame_advance_setFb s _).mayChange (by simp [mayChange, writesScreen]) h
  | ret => exact (frame_popped s _ _).mayChange (by simp [mayChange, isReturn]) h
  | jp nnn | jpV0 nnn => exact (frame_setPc s _).mayChange (by simp [mayChange]) h
  | call nnn =>
    have hsp : s.sp.val < 16 := sp_lt_of_call s nnn hno
    rw [completed_call_room s nnn hsp] at h
    exact (frame_pushed s ⟨_, hsp⟩ _ _ _).mayChange (by simp [mayChange, isCall]) h
  | seImm x nn | sneImm x nn | seReg x y | sneReg x y | skp x | sknp x =>
    exact (frame_skipIf s _).mayChange (by simp [mayChange]) h
  | ldImm x nn | addImm x nn | ldReg x y | or x y | and x y | xor x y | ldVxDt x =>
    exact (frame_advance_setV s x _).mayChange (by simp [mayChange, destinations]) h
  | addReg x y | sub x y | shr x y | subn x y | shl x y =>
    exact (frame_advance_flag s x _ _).mayChange (by simp [mayChange, destinations, writesFlag]) h
  | ldI nnn | addI x => exact (frame_advance_setI s _).mayChange (by simp [mayChange, writesIndex]) h
  | rnd x nn =>
    exact (frame_advance_setV_consumeDraw s x _).mayChange (by simp [mayChange, destinations, drawsRandom]) h
  | drw x y n =>
    exact (frame_advance_setFb_setV s _ _ _).mayChange (by simp [mayChange, writesScreen, writesFlag]) h
  | ldVxKey x =>
    rcases completed_keyWait_cases s x with hk | ⟨b, ks, hk⟩
    · rw [hk] at h
      exact (frame_setRunState s _).mayChange (by simp [mayChange, isKeyWait]) h
    · rw [hk] at h
      exact (frame_keyTaken s x _ _ _).mayChange (by simp [mayChange, isKeyWait, destinations]) h
  | ldDtVx x => exact (frame_advance_setDt s _).mayChange (by simp [mayChange, setsDelayTimer]) h
  | ldStVx x => exact (frame_advance_setSt s _).mayChange (by simp [mayChange, setsSoundTimer]) h
  | ldBcd x =>
    rcases List.mem_cons.mp ((frame_advance_setMem s _ 3 rfl).mem_of_changed h) with rfl | hc
    · rfl
    · obtain ⟨b, rfl⟩ := mem_cells hc; rfl
  | storeRegs x =>
    rcases List.mem_cons.mp ((frame_advance_setMem s _ _ (length_regBlock s x)).mem_of_changed h) with rfl | hc
    · rfl
    · obtain ⟨b, rfl⟩ := mem_cells hc; rfl
  | loadRegs x =>
    rcases List.mem_cons.mp ((frame_advance_setRegs s x _ (Memory.length_readBytes ..)).mem_of_changed h) with rfl | hc
    · rfl
    · obtain ⟨r, hr, rfl⟩ := mem_regsUpTo hc
      simp [mayChange, destinations, hr]

end Sys2Proof.Machine
end

section
/-! The program counter of a completed instruction (40_step_cycle.md R130), its flag, its stack, its memory and its run
state. -/

namespace Sys2Proof.Machine

variable (s : State)

/-! ## The program counter -/

theorem pc_advance_toNat {t : State} (h : t.pc = s.pc) :
    (advance t).pc.toNat = PcSource.sequential.value s % 65536 := by
  rw [advance_pc, npc, h, BitVec.toNat_add]; rfl

theorem pc_skipIf_toNat (c : Bool) : (skipIf c s).pc.toNat = (PcSource.skip c).value s % 65536 := by
  cases c
  · exact pc_advance_toNat s rfl
  · show (npc s + 2#16).toNat = (s.pc.toNat + 4) % 65536
    rw [npc_add_two, BitVec.toNat_add]; rfl

theorem pc_jump_toNat (nnn : Word) : nnn.toNat = (PcSource.jump nnn).value s % 65536 :=
  (Nat.mod_eq_of_lt nnn.isLt).symm

/-- The wait's multiplexer input, "some key is pressed", is what the priority encoder finds (R236). -/
theorem contains_true_iff (keys : Vector Bool 16) :
    keys.toList.contains true = (firstPressed keys).isSome := by
  rw [Bool.eq_iff_iff]
  simp [firstPressed, List.find?_isSome, Vector.mem_iff_getElem, Fin.exists_iff]

/-- `pc` takes the source the table gives (R130). -/
theorem completed_pc (i : Instr) : (completed i s).pc.toNat = (pcSource i s).value s % 65536 := by
  cases i with
  | jp nnn | call nnn => exact pc_jump_toNat s nnn
  | jpV0 nnn => rfl
  | ret =>
    show (s.stack[s.sp.val - 1]'(sp_pred_lt s)).toNat = (s.stack[s.sp.val - 1]?.getD 0).toNat % 65536
    rw [Vector.getElem?_eq_getElem (sp_pred_lt s)]
    exact (Nat.mod_eq_of_lt (BitVec.isLt _)).symm
  | seImm x nn => exact pc_skipIf_toNat s _
  | seReg x y => exact pc_skipIf_toNat s _
  | sneImm x nn | sneReg x y =>
    rw [completed, bne, beq_eq_decide, ← decide_not]; exact pc_skipIf_toNat s _
  | skp x | sknp x =>
    rw [completed, beq_eq_decide]; exact pc_skipIf_toNat s _
  | ldVxKey x =>
    cases h : firstPressed s.keys with
    | none =>
      rw [completed_keyWait_none s x h, pcSource, contains_true_iff, h]
      exact (Nat.mod_eq_of_lt s.pc.isLt).symm
    | some k =>
      rw [completed_keyWait_some s x k h, pcSource, contains_true_iff, h]
      exact pc_advance_toNat s rfl
  | _ => exact pc_advance_toNat s rfl

theorem sequential_le (h : s.pc.toNat ≤ 4094) : PcSource.sequential.value s ≤ 4096 := Nat.add_le_add_right h 2

theorem skip_le (c : Bool) (h : s.pc.toNat ≤ 4094) : (PcSource.skip c).value s ≤ 4098 := by
  cases c
  · exact Nat.add_le_add_right h 2 |>.trans (by decide)
  · exact Nat.add_le_add_right h 4

/-- In a state that meets the invariant each source stays within the width note of R130: the fetch bounds `pc`, the
encoding bounds `NNN`, and the calls made bound the return addresses. -/
theorem pcSource_value_le {w : Word} {i : Instr} (hinv : s.Inv) (hf : fetch s = some w) (hd : decode w = .instr i)
    (hno : faultTable i s = none) : (pcSource i s).value s ≤ (pcSource i s).bound := by
  have hpc : s.pc.toNat ≤ 4094 := (fetch_some s hf).1
  have hwf := wellFormed_of_decode hd
  cases i with
  | jp nnn | call nnn => exact Nat.le_of_lt_succ (of_decide_eq_true hwf)
  | jpV0 nnn =>
    have hn : nnn.toNat < 4096 := of_decide_eq_true hwf
    have hv := (s.V[(0 : Reg)]).isLt
    show nnn.toNat + s.V[(0 : Reg)].toNat ≤ 0x10FE
    omega
  | ret =>
    have hsp : s.sp.val ≠ 0 := fun e => by simp [faultTable, e] at hno
    show (s.stack[s.sp.val - 1]?.getD 0).toNat ≤ 4096
    rw [Vector.getElem?_eq_getElem (sp_pred_lt s)]
    exact hinv.returnBound ⟨s.sp.val - 1, sp_pred_lt s⟩ (Nat.sub_lt (Nat.pos_of_ne_zero hsp) Nat.one_pos)
  | seImm | seReg | sneImm | sneReg | skp | sknp => exact skip_le s _ hpc
  | ldVxKey x =>
    rw [pcSource]
    split
    · exact sequential_le s hpc
    · exact hpc
  | _ => exact sequential_le s hpc

theorem bound_le (p : PcSource) : p.bound ≤ 0x10FE := by
  cases p <;> simp [PcSource.bound]

/-! ## The flag -/

/-- A flag writer's `VF` is a flag, also where `VF` is its destination (R172). -/
theorem completed_VF (i : Instr) (h : writesFlag i = true) :
    (completed i s).V[(15 : Reg)] = 0#8 ∨ (completed i s).V[(15 : Reg)] = 1#8 := by
  cases i
  case addReg x y | sub x y | shr x y | subn x y | shl x y =>
    rw [completed, get_advance_flag, if_pos rfl]; exact flagByte_zero_or_one _
  case drw x y n =>
    rw [completed, get_advance_setV, if_pos rfl]; exact flagByte_zero_or_one _
  all_goals cases h

/-! ## Memory, the call stack, the run state -/

/-- Memory stays canonical: a completed store wrote a block that was in bounds (20_memory.md R62). -/
theorem completed_memory {i : Instr} (hno : faultTable i s = none) (h : Memory.wf s.mem) :
    Memory.wf (completed i s).mem := by
  cases i with
  | ldBcd x =>
    have hI : ¬ 4095 < s.I.toNat + 2 := fun hgt => by simp [faultTable, hgt] at hno
    have hlen : (bcdDigits s.V[x]).length = 3 := rfl
    exact Memory.wf_writeBytes _ _ _ h (by simp only [Config.memSize]; omega)
  | storeRegs x =>
    have hI : ¬ 4095 < s.I.toNat + x.val := fun hgt => by simp [faultTable, hgt] at hno
    have hlen := length_regBlock s x
    exact Memory.wf_writeBytes _ _ _ h (by simp only [Config.memSize]; omega)
  | ldVxKey x =>
    rcases completed_keyWait_cases s x with hk | ⟨b, ks, hk⟩
    · rw [hk]; exact h
    · rw [hk]; exact h
  | _ => exact h

/-- Every entry held after a completed instruction was held before, or is the address after a call (R148). -/
theorem completed_stack {i : Instr} (hno : faultTable i s = none) (k : Fin 16)
    (hk : k.val < (completed i s).sp.val) :
    (k.val < s.sp.val ∧ (completed i s).stack[k] = s.stack[k]) ∨ (completed i s).stack[k] = npc s := by
  cases i with
  | ret => exact .inl ⟨Nat.lt_of_lt_of_le hk (Nat.sub_le _ _), rfl⟩
  | call nnn =>
    have hsp : s.sp.val < 16 := sp_lt_of_call s nnn hno
    rw [completed_call_room s nnn hsp] at hk ⊢
    have hle : k.val ≤ s.sp.val := Nat.le_of_lt_succ hk
    rcases Nat.lt_or_eq_of_le hle with hlt | heq
    · exact .inl ⟨hlt, Vector.getElem_set_ne hsp k.isLt hlt.ne'⟩
    · exact .inr (by simp [heq])
  | ldVxKey x =>
    rcases completed_keyWait_cases s x with h | ⟨b, ks, h⟩
    · rw [h] at hk ⊢; exact .inl ⟨hk, rfl⟩
    · rw [h] at hk ⊢; exact .inl ⟨hk, rfl⟩
  | _ => exact .inl ⟨hk, rfl⟩

/-- A machine waits after an instruction only where that was an Fx0A with no key pressed, or where it waited before one
that is no Fx0A (10_state.md R29). -/
theorem completed_waiting {i : Instr} (h : (completed i s).runState = .waitingForKey) :
    (∃ x, i = .ldVxKey x ∧ completed i s = s.setRunState .waitingForKey) ∨
    (isKeyWait i = false ∧ s.runState = .waitingForKey) := by
  cases i with
  | ldVxKey x =>
    rcases completed_keyWait_cases s x with hk | ⟨b, ks, hk⟩
    · exact .inl ⟨x, rfl, hk⟩
    · rw [hk] at h; cases h
  | _ => exact .inr ⟨rfl, h⟩

/-! ## The previous key states -/

theorem faultTable_setPrevKeys (i : Instr) (p : Vector Bool 16) : faultTable i (s.setPrevKeys p) = faultTable i s := by
  cases i <;> rfl

/-- No instruction reads or writes `prev_keys` (10_state.md R28). -/
theorem completed_setPrevKeys (i : Instr) (p : Vector Bool 16) :
    completed i (s.setPrevKeys p) = (completed i s).setPrevKeys p := by
  cases i with
  | ldVxKey x =>
    cases h : firstPressed s.keys with
    | none => rw [completed_keyWait_none s x h]; exact completed_keyWait_none (s.setPrevKeys p) x h
    | some k => rw [completed_keyWait_some s x k h]; exact completed_keyWait_some (s.setPrevKeys p) x k h
  | _ => rfl

theorem completed_prevKeys {i : Instr} (hno : faultTable i s = none) : (completed i s).prevKeys = s.prevKeys := by
  by_contra h
  cases completed_mayChange s hno (p := .prevKeys) h

end Sys2Proof.Machine
end

section
/-! The step cycle (40_step_cycle.md) and the faults (60_exceptions.md): one step, the fault table, the program counter,
the parts an instruction may change, the flag. -/

namespace Sys2Proof.Machine

variable (s : State)

/-- R121: two bytes, the high one first. -/
theorem fetch_of_toNat {w : Word} (hpc : s.pc.toNat ≤ 4094)
    (hw : w.toNat = (Memory.read s.mem s.pc.toNat).toNat * 256 + (Memory.read s.mem (s.pc.toNat + 1)).toNat) :
    fetch s = some w := by
  rw [fetch_inBounds s hpc]
  exact congrArg some (BitVec.eq_of_toNat_eq ((wordOfBytes_toNat _ _).trans hw.symm))

theorem raiseFetch_eq : raiseFetch s = .next (s.setFault ⟨.fetchOutOfBounds, s.pc, 0#16, s.pc⟩) := by
  rw [raiseFetch, raise, BitVec.ofNat_toNat, BitVec.setWidth_eq]

theorem diagEvent_unknown {w u : Word} (h : s.fault = none) (hf : fetch s = some w)
    (hd : decode w = .unknownOpcode u) : diagEvent s = some u := by
  simp [diagEvent, halted, h, hf, hd]

/-- Settles O5: the fetch gives the word of the two bytes, and a step with no fault latched runs what it decodes to. -/
theorem stepRunsTheDecodedInstruction : Obligations.StepRunsTheDecodedInstruction :=
  fun s _ _ hfault hpc hw hd => step_instr s hfault (fetch_of_toNat s hpc hw) hd

/-- Settles O6, from the fetch out of bounds and the frame of a raised fault. -/
theorem fetchBeyondMemoryLatchesItsFault : Obligations.FetchBeyondMemoryLatchesItsFault :=
  fun s hfault hpc =>
    ⟨_, (step_fetch_none s hfault (fetch_outOfBounds s hpc)).trans (raiseFetch_eq s), rfl, raise_frame s _⟩

/-- Settles O7: a word no row selects decodes as unknown, which a step passes over. -/
theorem unknownOpcodeOnlyAdvances : Obligations.UnknownOpcodeOnlyAdvances := by
  intro s w hfault hf hnone
  have hd := (decode_unknown_iff w).mpr hnone
  exact ⟨_, step_unknown s hfault hf hd, rfl, frame_advance s, diagEvent_unknown s hfault hf hd⟩

/-- Settles O8, from the first case of a step. -/
theorem faultedMachineIsInert : Obligations.FaultedMachineIsInert :=
  fun s r h => step_halted s r h

/-- Settles O9, from the case analysis of a step. -/
theorem stepAlwaysAnswersANextState : Obligations.StepAlwaysAnswersANextState :=
  step_answers_next

/-- Settles O10, from the two outcomes of an instruction. -/
theorem faultsAreRaisedExactlyOnTheTabledConditions : Obligations.FaultsAreRaisedExactlyOnTheTabledConditions :=
  ⟨fun _ s _ _ h => ⟨_, exec_raises s h, rfl, raise_frame s _⟩,
    fun i s h => ⟨_, exec_completes s h, completed_fault s i⟩⟩

/-- A step that latches a fault, or finds one latched, holds `pc` (R126). -/
theorem step_faulted_pc {s t : State} {r : FaultRecord} (h : step s = .next t) (ht : t.fault = some r) :
    t.pc = s.pc := by
  rcases step_cases s with ⟨-, -, he⟩ | ⟨-, -, he⟩ | ⟨hs, -, he⟩ | ⟨hs, w, i, -, -, he⟩
  · cases he.symm.trans h; rfl
  · cases (he.trans (raiseFetch_eq s)).symm.trans h; rfl
  · cases he.symm.trans h
    cases hs.symm.trans ht
  · rcases exec_outcome s i with ⟨c, info, -, hx⟩ | ⟨-, hx⟩
    · cases (he.trans hx).symm.trans h; rfl
    · cases (he.trans hx).symm.trans h
      cases ((completed_fault s i).trans hs).symm.trans ht

/-- Settles O11, from the source a completed instruction takes and the width note of each source. -/
theorem programCounterTakesOneOfTheTabledSources : Obligations.ProgramCounterTakesOneOfTheTabledSources := by
  refine ⟨fun s w i hs hf hd hno => ?_, fun s w hs hf hd => ?_, fun s t r h ht => step_faulted_pc h ht,
    fun _ _ => rfl⟩
  · refine ⟨_, (step_instr s hs hf hd).trans (exec_completes s hno), completed_pc s i, fun hinv => ?_⟩
    rw [completed_pc]
    exact (Nat.mod_le _ _).trans (pcSource_value_le s hinv hf hd hno)
  · have hpc : s.pc.toNat ≤ 4094 := (fetch_some s hf).1
    have hnpc := npc_toNat s hpc
    exact ⟨_, step_unknown s hs hf hd, hnpc, by rw [advance_pc, hnpc]; omega⟩

theorem mayFault_of_faultTable {i : Instr} {f : Fault × Nat} (h : faultTable i s = some f) : mayFault i = true := by
  by_contra hm
  cases h.symm.trans (faultTable_of_not_mayFault s (by simpa using hm))

/-- The fetch fault is raised by a fetch alone, by no instruction (60_exceptions.md R271). -/
theorem code_of_faultTable {i : Instr} {c : Fault} {info : Nat} (h : faultTable i s = some (c, info)) :
    c ≠ .fetchOutOfBounds := by
  rintro rfl
  cases i
  case ret | call | ldBcd | storeRegs | loadRegs | drw | skp | sknp => simp [faultTable] at h
  all_goals cases h

/-- Settles O12: a raised fault changes the latch, and a completed instruction what its frame lists. -/
theorem instructionsChangeOnlyTheirNamedParts : Obligations.InstructionsChangeOnlyTheirNamedParts := by
  intro i s t p h hp
  rcases exec_outcome s i with ⟨c, info, htab, he⟩ | ⟨hno, he⟩
  · cases he.symm.trans h
    exact (raise_frame s _).mayChange (by simp [mayChange, mayFault_of_faultTable s htab]) hp
  · cases he.symm.trans h
    exact completed_mayChange s hno hp

/-- Settles O13: a completed flag writer leaves a flag in `VF`, a raised fault leaves the registers. -/
theorem flagWritersLeaveZeroOrOneInVF : Obligations.FlagWritersLeaveZeroOrOneInVF := by
  intro i s t h hw
  rcases exec_outcome s i with ⟨c, info, htab, he⟩ | ⟨hno, he⟩
  · cases he.symm.trans h
    exact ⟨fun hno => absurd (htab.symm.trans hno) nofun, fun _ => rfl⟩
  · cases he.symm.trans h
    exact ⟨fun _ => completed_VF s i hw, fun hne => absurd hno hne⟩

/-- Settles O18: every case of a step commutes with a change of `prev_keys`, and none writes them. -/
theorem previousKeysInfluenceNoStep : Obligations.PreviousKeysInfluenceNoStep := by
  intro s p
  have hf' : fetch (s.setPrevKeys p) = fetch s := fetch_congr rfl rfl
  rcases step_cases s with ⟨r, hs, he⟩ | ⟨hs, hf, he⟩ | ⟨hs, ⟨w, u, hf, hd⟩, he⟩ | ⟨hs, w, i, hf, hd, he⟩
  · exact ⟨_, he, rfl, step_halted (s.setPrevKeys p) r hs⟩
  · exact ⟨_, he, rfl, step_fetch_none (s.setPrevKeys p) hs (hf'.trans hf)⟩
  · exact ⟨_, he, rfl, step_unknown (s.setPrevKeys p) hs (hf'.trans hf) hd⟩
  · have he' : step (s.setPrevKeys p) = exec i (s.setPrevKeys p) :=
      step_instr (s.setPrevKeys p) hs (hf'.trans hf) hd
    rcases exec_outcome s i with ⟨c, info, htab, hx⟩ | ⟨hno, hx⟩
    · exact ⟨_, he.trans hx, rfl,
        he'.trans (exec_raises (s.setPrevKeys p) ((faultTable_setPrevKeys s i p).trans htab))⟩
    · refine ⟨_, he.trans hx, completed_prevKeys s hno, ?_⟩
      rw [he', exec_completes _ ((faultTable_setPrevKeys s i p).trans hno), completed_setPrevKeys]

end Sys2Proof.Machine
end

section
/-! The invariant along a step (40_step_cycle.md sections 3, 4, 6; 60_exceptions.md section 5). -/

namespace Sys2Proof.Machine

variable (s : State)

/-- Every row fixes the leading nibble (R94), so the instruction decoded tells the leading nibble of its word. -/
theorem leading_of_decode {w : Word} {i : Instr} (h : decode w = .instr i) :
    w.toNat / 4096 = (opcodeRow i).value.toNat / 4096 := by
  have hmask : ∀ r ∈ opcodeMap, r.mask &&& 0xF000#16 = 0xF000#16 := by decide
  have hrow : w &&& (opcodeRow i).mask = (opcodeRow i).value := of_decide_eq_true (selects_of_decode w i h)
  have hand : w &&& 0xF000#16 = (opcodeRow i).value &&& 0xF000#16 := by
    rw [← hrow, BitVec.and_assoc, hmask _ (opcodeRow_mem i)]
  have hnat := congrArg BitVec.toNat hand
  rw [and_F000_toNat, and_F000_toNat] at hnat
  omega

/-- An instruction that can fault or wait has no ignored nibble, so its encoding is the very word that was fetched
(log entry 5). -/
theorem encode_eq_of_decode {w : Word} {i : Instr} (h : decode w = .instr i)
    (hi : mayFault i = true ∨ isKeyWait i = true) : encode i = w := by
  have hlead := leading_of_decode h
  have hne : ¬ ((opcodeRow i).value.toNat / 4096 = 5 ∨ (opcodeRow i).value.toNat / 4096 = 9) := by
    cases i
    case seReg | sneReg => simp [mayFault, isKeyWait] at hi
    all_goals simp [opcodeRow]
  apply BitVec.eq_of_toNat_eq
  rw [encode_of_decode_toNat h, hlead, if_neg hne]

theorem decode_keyWait (x : Reg) : decode (encode (.ldVxKey x)) = .instr (.ldVxKey x) := decode_encode rfl

/-- A waiting machine that fetches an instruction fetches an Fx0A. -/
theorem State.Inv.isKeyWait_of_waiting {s : State} (hinv : s.Inv) (hwait : s.runState = .waitingForKey) {w : Word}
    (hf : fetch s = some w) : ∃ x, decode w = .instr (.ldVxKey x) := by
  obtain ⟨x, hx⟩ := hinv.waitingAtKeyWait hwait
  cases hf.symm.trans hx
  exact ⟨x, decode_keyWait x⟩

/-- A precise fault raised by a machine that is not waiting keeps the invariant: it changes the latch alone. -/
theorem State.Inv.setFault {s : State} (hinv : s.Inv) (hrun : s.runState ≠ .waitingForKey) {r : FaultRecord}
    (hr : recordMatches s r) : (s.setFault r).Inv where
  memCanonical := hinv.memCanonical
  pcBound := hinv.pcBound
  returnBound := hinv.returnBound
  waitingAtKeyWait h := absurd h hrun
  waitingNotFaulted h := absurd h hrun
  faultPrecise r' h := by cases h; exact hr

theorem State.Inv.of_raiseFetch {s : State} (hinv : s.Inv) (hf : fetch s = none) :
    (s.setFault ⟨.fetchOutOfBounds, s.pc, 0#16, s.pc⟩).Inv := by
  refine hinv.setFault (fun hwait => ?_) ⟨rfl, fun _ => ⟨hf, rfl⟩, fun hne => absurd rfl hne⟩
  obtain ⟨x, hx⟩ := hinv.waitingAtKeyWait hwait
  cases hf.symm.trans hx

theorem State.Inv.of_unknown {s : State} (hinv : s.Inv) (hs : s.fault = none) {w u : Word}
    (hf : fetch s = some w) (hd : decode w = .unknownOpcode u) : (advance s).Inv := by
  have hpc : s.pc.toNat ≤ 4094 := (fetch_some s hf).1
  have hrun : s.runState ≠ .waitingForKey := fun hwait => by
    obtain ⟨x, hx⟩ := hinv.isKeyWait_of_waiting hwait hf
    cases hd.symm.trans hx
  exact {
    memCanonical := hinv.memCanonical
    pcBound := by rw [advance_pc, npc_toNat s hpc]; omega
    returnBound := hinv.returnBound
    waitingAtKeyWait := fun h => absurd h hrun
    waitingNotFaulted := fun h => absurd h hrun
    faultPrecise := fun r h => by cases hs.symm.trans h }

theorem State.Inv.of_raised {s : State} (hinv : s.Inv) {w : Word} {i : Instr} {c : Fault} {info : Nat}
    (hf : fetch s = some w) (hd : decode w = .instr i) (htab : faultTable i s = some (c, info)) :
    (s.setFault ⟨c, s.pc, encode i, BitVec.ofNat 16 info⟩).Inv := by
  have hmay := mayFault_of_faultTable s htab
  have hw : encode i = w := encode_eq_of_decode hd (.inl hmay)
  refine hinv.setFault (fun hwait => ?_) ⟨rfl, fun hc => ?_, fun _ => by rw [hf, hw]⟩
  · obtain ⟨x, hx⟩ := hinv.isKeyWait_of_waiting hwait hf
    cases hd.symm.trans hx
    cases hmay
  · exact absurd hc (code_of_faultTable s htab)

theorem State.Inv.of_completed {s : State} (hinv : s.Inv) (hs : s.fault = none) {w : Word} {i : Instr}
    (hf : fetch s = some w) (hd : decode w = .instr i) (hno : faultTable i s = none) : (completed i s).Inv where
  memCanonical := completed_memory s hno hinv.memCanonical
  pcBound := by
    rw [completed_pc]
    exact (Nat.mod_le _ _).trans ((pcSource_value_le s hinv hf hd hno).trans (bound_le _))
  returnBound k hk := by
    rcases completed_stack s hno k hk with ⟨hlt, he⟩ | he
    · rw [he]; exact hinv.returnBound k hlt
    · have hpc : s.pc.toNat ≤ 4094 := (fetch_some s hf).1
      rw [he, npc_toNat s hpc]; omega
  waitingAtKeyWait h := by
    rcases completed_waiting s h with ⟨x, rfl, he⟩ | ⟨hi, hwait⟩
    · refine ⟨x, ?_⟩
      have hsame : fetch (s.setRunState .waitingForKey) = fetch s := fetch_congr rfl rfl
      rw [he, hsame, hf, encode_eq_of_decode hd (.inr rfl)]
    · obtain ⟨x, hx⟩ := hinv.isKeyWait_of_waiting hwait hf
      cases hd.symm.trans hx
      cases hi
  waitingNotFaulted _ := (completed_fault s i).trans hs
  faultPrecise r h := by cases ((completed_fault s i).trans hs).symm.trans h

/-- Settles O14, one case of a step at a time. -/
theorem everyStepKeepsTheInvariant : Obligations.EveryStepKeepsTheInvariant := by
  intro s t hinv h
  rcases step_cases s with ⟨-, -, he⟩ | ⟨-, hf, he⟩ | ⟨hs, ⟨w, u, hf, hd⟩, he⟩ | ⟨hs, w, i, hf, hd, he⟩
  · cases he.symm.trans h; exact hinv
  · cases (he.trans (raiseFetch_eq s)).symm.trans h; exact hinv.of_raiseFetch hf
  · cases he.symm.trans h; exact hinv.of_unknown hs hf hd
  · rcases exec_outcome s i with ⟨c, info, htab, hx⟩ | ⟨hno, hx⟩
    · cases (he.trans hx).symm.trans h; exact hinv.of_raised hf hd htab
    · cases (he.trans hx).symm.trans h; exact hinv.of_completed hs hf hd hno

/-- Settles O17: the machine stands at an Fx0A with no fault latched, so a step is that Fx0A. -/
theorem waitingStepsOnlyPollTheKeys : Obligations.WaitingStepsOnlyPollTheKeys := by
  intro s hinv hwait
  obtain ⟨x, hf⟩ := hinv.waitingAtKeyWait hwait
  have hstep := step_instr s (hinv.waitingNotFaulted hwait) hf (decode_keyWait x)
  refine ⟨fun hnone => ?_, fun ⟨k, hk⟩ => ?_⟩
  · have hstay : s.setRunState .waitingForKey = s := by rw [← hwait]; rfl
    rw [hstep, exec_ldVxKey_wait s x ((firstPressed_none _).mpr hnone), hstay]
  · cases hp : firstPressed s.keys with
    | none => rw [(firstPressed_none _).mp hp k] at hk; cases hk
    | some j => exact ⟨_, hstep.trans (exec_ldVxKey_take s x j hp), rfl, rfl⟩

end Sys2Proof.Machine
end

section
/-! Host operations (46_host_operations.md): `load_rom` (R250), `snapshot_previous` (R252), `tick_timers` (R253), and
what holds along every run (R257, R260). -/

namespace Sys2Proof.Machine

variable (s : State)

/-! ## Chained frames -/

theorem samePart.trans {s t u : State} {p : Part} (hst : samePart s t p) (htu : samePart t u p) : samePart s u p := by
  cases p <;> exact Eq.trans htu hst

theorem UnchangedBut.trans {L : List Part} {s t u : State} (hst : UnchangedBut L s t) (htu : UnchangedBut L t u) :
    UnchangedBut L s u :=
  fun p hp => (hst p hp).trans (htu p hp)

theorem UnchangedBut.mono {L M : List Part} {s t : State} (h : UnchangedBut L s t) (hLM : L ⊆ M) : UnchangedBut M s t :=
  fun p hp => h p (fun hL => hp (hLM hL))

/-! ## `load_rom` -/

theorem romFits_iff (rom : List Byte) : romFits rom = true ↔ rom.length ≤ 3584 := by simp [romFits]

/-- A ROM that fits replaces whatever machine there was (R250). -/
theorem hostOp_loadRom_fits {rom : List Byte} (h : rom.length ≤ 3584) (m : Option State) :
    hostOp (.loadRom rom) m = (some (loadRom rom ((m.map State.draws).getD 0)), .done) := by
  have hfit := (romFits_iff rom).mpr h
  cases m <;> simp [hostOp, hostOpUnloaded, hostOpRunning, hfit]

theorem hostOp_loadRom_tooLong {rom : List Byte} (h : 3584 < rom.length) (m : Option State) :
    hostOp (.loadRom rom) m = (m, .refused .romTooLong) := by
  have hfit : romFits rom = false := by
    rw [Bool.eq_false_iff, ne_eq, romFits_iff]; omega
  cases m <;> simp [hostOp, hostOpUnloaded, hostOpRunning, hfit]

theorem read_loadRom (rom : List Byte) (n a : Nat) : Memory.read (loadRom rom n).mem a
    = if 0x200 ≤ a ∧ a < 0x200 + rom.length then rom.getD (a - 0x200) 0#8 else 0#8 := by
  rw [loadRom, Memory.read_writeBytes]; rfl

theorem wf_loadRom {rom : List Byte} (h : rom.length ≤ 3584) (n : Nat) : Memory.wf (loadRom rom n).mem :=
  Memory.wf_writeBytes rom [] Config.romOrigin ⟨.nil, nofun⟩ (by simp only [Config.romOrigin, Config.memSize]; omega)

theorem reset_V : ∀ r : Reg, State.reset.V[r] = 0#8 := by decide

theorem reset_stack : ∀ k : Fin 16, State.reset.stack[k] = 0#16 := by decide

theorem reset_keys : ∀ k : Reg, State.reset.keys[k] = false ∧ State.reset.prevKeys[k] = false := by decide

/-- Settles O19, from the memory of a load, its canonical form, and the reset values. -/
theorem loadRomLeavesTheResetStateWithTheRom : Obligations.LoadRomLeavesTheResetStateWithTheRom := by
  intro rom m h
  exact ⟨_, hostOp_loadRom_fits h m, read_loadRom rom _, wf_loadRom h _, rfl, rfl, reset_V, rfl, reset_stack, rfl, rfl,
    reset_keys, rfl, rfl, fbRead_clearFb⟩

/-- A load that is answered leaves a state that only the draw counter ties to the past. -/
theorem eq_loadRom_of_done {rom : List Byte} {m : Option State} {t : State}
    (h : hostOp (.loadRom rom) m = (some t, .done)) : t = loadRom rom t.draws := by
  rcases Nat.lt_or_ge 3584 rom.length with hlong | hfits
  · cases (hostOp_loadRom_tooLong hlong m).symm.trans h
  · cases (hostOp_loadRom_fits hfits m).symm.trans h; rfl

/-- Settles O20: both loads are the load of that ROM, but for the draw counter. -/
theorem loadRomForgetsThePast : Obligations.LoadRomForgetsThePast := by
  intro rom m m' t t' h h'
  rw [eq_loadRom_of_done h, eq_loadRom_of_done h']; rfl

/-- Settles O21: the ROM does not fit, and before the first load no other operation has a machine to run on. -/
theorem tooLongRomsAndUnloadedOperationsAreRefused : Obligations.TooLongRomsAndUnloadedOperationsAreRefused := by
  refine ⟨fun rom m h => hostOp_loadRom_tooLong h m, fun op h => ?_⟩
  cases op
  case loadRom => cases h
  all_goals rfl

/-! ## `snapshot_previous` and `tick_timers` -/

/-- Settles O24, from the frame of the operation. -/
theorem snapshotCopiesTheKeyStates : Obligations.SnapshotCopiesTheKeyStates :=
  fun s => ⟨_, rfl, fun _ => rfl, frame_snapshotPrevious s⟩

theorem tick_toNat (b : Byte) : (tick b).toNat = b.toNat - 1 := by
  rw [tick]
  split
  · next h => bv_omega
  · next h => omega

/-- Settles O25, by induction on the number of ticks. -/
theorem ticksCountEachTimerDownToZero : Obligations.TicksCountEachTimerDownToZero := by
  intro n
  induction n with
  | zero => exact fun s => ⟨s, rfl, rfl, rfl, .refl s _⟩
  | succ n ih =>
    intro s
    obtain ⟨t, hrun, hdt, hst, hframe⟩ := ih (tickTimers s)
    have hdt1 : (tickTimers s).dt.toNat = s.dt.toNat - 1 := tick_toNat s.dt
    have hst1 : (tickTimers s).st.toNat = s.st.toNat - 1 := tick_toNat s.st
    exact ⟨t, hrun, by omega, by omega, (frame_tickTimers s).trans hframe⟩

/-! ## A latched fault -/

theorem hostParts_subset (op : HostOp) : hostParts op ⊆ [.keys, .prevKeys, .dt, .st] := by
  cases op
  case setKeys => exact show [Part.keys] ⊆ _ by decide
  case snapshotPrevious => exact show [Part.prevKeys] ⊆ _ by decide
  case tickTimers => exact show [Part.dt, Part.st] ⊆ _ by decide
  all_goals exact List.nil_subset _

/-- With a fault latched, an operation other than `load_rom` changes the key states and the timers at most. -/
theorem frame_hostOp_faulted {op : HostOp} (hop : isLoadRom op = false) (hs : s.fault ≠ none) :
    UnchangedBut [.keys, .prevKeys, .dt, .st] s (hostOpRunning op s).1 := by
  by_cases hstep : op = .step
  · subst hstep
    obtain ⟨r, hr⟩ := Option.ne_none_iff_exists'.mp hs
    rw [hostOpRunning, step_halted s r hr]
    exact .refl s _
  · exact (frame_hostOpRunning s op hop hstep).mono (hostParts_subset op)

/-- Settles O28, by induction on the operations: the latch is among what each of them leaves. -/
theorem latchedFaultOutlivesAllButLoadRom : Obligations.LatchedFaultOutlivesAllButLoadRom := by
  intro ops
  induction ops with
  | nil => exact fun s _ _ => ⟨s, rfl, .refl s _⟩
  | cons op ops ih =>
    intro s hs hops
    have hframe := frame_hostOp_faulted s (hops op (by simp)) hs
    have hfault : (hostOpRunning op s).1.fault = s.fault := hframe .fault (by simp)
    obtain ⟨t, hrun, ht⟩ := ih (hostOpRunning op s).1 (hfault.trans_ne hs) (fun o ho => hops o (by simp [ho]))
    exact ⟨t, hrun, hframe.trans ht⟩

/-! ## The invariant along every run -/

theorem loadRom_inv {rom : List Byte} (h : rom.length ≤ 3584) (n : Nat) : (loadRom rom n).Inv where
  memCanonical := wf_loadRom h n
  pcBound := show (0x200#16).toNat ≤ 0x10FE by decide
  returnBound _ hk := absurd hk (Nat.not_lt_zero _)
  waitingAtKeyWait := nofun
  waitingNotFaulted := nofun
  faultPrecise := nofun

/-- The invariant speaks of `pc`, memory, the call stack, the run state and the latch, and of nothing else. -/
theorem State.Inv.of_frame {s t : State} (hinv : s.Inv) (hmem : t.mem = s.mem) (hpc : t.pc = s.pc)
    (hstack : t.stack = s.stack) (hsp : t.sp = s.sp) (hrun : t.runState = s.runState) (hfault : t.fault = s.fault) :
    t.Inv := by
  have hfetch : fetch t = fetch s := fetch_congr hpc hmem
  obtain ⟨h1, h2, h3, h4, h5, h6⟩ := hinv
  refine ⟨hmem ▸ h1, hpc ▸ h2, ?_, ?_, ?_, ?_⟩
  · rw [hstack, hsp]; exact h3
  · rw [hrun, hfetch]; exact h4
  · rw [hrun, hfault]; exact h5
  · intro r hr
    rw [recordMatches, hpc, hfetch]
    exact h6 r (hfault ▸ hr)

theorem hostOpRunning_inv (op : HostOp) (hinv : s.Inv) : (hostOpRunning op s).1.Inv := by
  cases op with
  | loadRom rom =>
    rw [hostOpRunning]
    split
    · next hfit => exact loadRom_inv ((romFits_iff rom).mp hfit) _
    · exact hinv
  | step =>
    obtain ⟨t, ht⟩ := step_answers_next s
    rw [hostOpRunning, ht]
    exact everyStepKeepsTheInvariant s t hinv ht
  | setKeys k => exact hinv.of_frame rfl rfl rfl rfl rfl rfl
  | snapshotPrevious => exact hinv.of_frame rfl rfl rfl rfl rfl rfl
  | tickTimers => exact hinv.of_frame rfl rfl rfl rfl rfl rfl
  | soundActive | framebuffer | status => exact hinv

theorem hostOp_inv (op : HostOp) {m : Option State} (hm : ∀ s, m = some s → s.Inv) :
    ∀ s, (hostOp op m).1 = some s → s.Inv := by
  intro t ht
  cases m with
  | some s =>
    cases ht
    exact hostOpRunning_inv s op (hm s rfl)
  | none =>
    cases op
    case loadRom rom =>
      rcases Nat.lt_or_ge 3584 rom.length with hlong | hfits
      · rw [hostOp_loadRom_tooLong hlong] at ht; cases ht
      · rw [hostOp_loadRom_fits hfits] at ht; cases ht; exact loadRom_inv hfits _
    all_goals cases ht

theorem hostRun_inv (ops : List HostOp) : ∀ m : Option State, (∀ s, m = some s → s.Inv) →
    ∀ s, hostRun ops m = some s → s.Inv := by
  induction ops with
  | nil => exact fun _ hm => hm
  | cons op ops ih => exact fun m hm => ih (hostOp op m).1 (hostOp_inv op hm)

/-- Settles O15: the reset state is the load of the empty ROM, and every load of a ROM that fits meets the invariant. -/
theorem resetIsTheEmptyRomAndMeetsTheInvariant : Obligations.ResetIsTheEmptyRomAndMeetsTheInvariant :=
  ⟨rfl, loadRom_inv (rom := []) (Nat.zero_le _) 0⟩

/-- Settles O16: there is no machine to begin with, and each operation keeps the invariant of the one there is. -/
theorem everyReachableStateMeetsTheInvariant : Obligations.EveryReachableStateMeetsTheInvariant :=
  fun ops s h => hostRun_inv ops none nofun s h

end Sys2Proof.Machine
end

section
/-! Arithmetic, logic, shift and random (42_alu.md): 7xNN, 8xy0 to 8xy7, 8xyE, CxNN. -/

namespace Sys2Proof.Machine

variable (s : State) (x y : Reg)

/-! ## The one outcome of each instruction -/

theorem exec_addImm (nn : Byte) : exec (.addImm x nn) s = .next (advance (s.setV x (s.V[x] + nn))) := rfl

theorem exec_ldReg : exec (.ldReg x y) s = .next (advance (s.setV x s.V[y])) := rfl

theorem exec_or : exec (.or x y) s = .next (advance (s.setV x (s.V[x] ||| s.V[y]))) := rfl

theorem exec_and : exec (.and x y) s = .next (advance (s.setV x (s.V[x] &&& s.V[y]))) := rfl

theorem exec_xor : exec (.xor x y) s = .next (advance (s.setV x (s.V[x] ^^^ s.V[y]))) := rfl

theorem exec_addReg : exec (.addReg x y) s
    = .next (advance (writeResultThenFlag x (s.V[x] + s.V[y]) (carry s.V[x] s.V[y]) s)) := rfl

theorem exec_sub : exec (.sub x y) s
    = .next (advance (writeResultThenFlag x (s.V[x] - s.V[y]) (notBorrow s.V[x] s.V[y]) s)) := rfl

theorem exec_subn : exec (.subn x y) s
    = .next (advance (writeResultThenFlag x (s.V[y] - s.V[x]) (notBorrow s.V[y] s.V[x]) s)) := rfl

theorem exec_shr : exec (.shr x y) s
    = .next (advance (writeResultThenFlag x (s.V[y] >>> 1) (shiftedOutRight s.V[y]) s)) := rfl

theorem exec_shl : exec (.shl x y) s
    = .next (advance (writeResultThenFlag x (s.V[y] <<< 1) (shiftedOutLeft s.V[y]) s)) := rfl

theorem exec_rnd (nn : Byte) : exec (.rnd x nn) s
    = .next (advance ((s.setV x (Config.rndDraw s.draws &&& nn)).consumeDraw)) := rfl

/-! ## The register and the flag they leave -/

theorem get_advance_setV_same (b : Byte) : (advance (s.setV x b)).V[x] = b := by
  rw [get_advance_setV, if_pos rfl]

theorem get_advance_flag_result {x : Reg} (hx : x ≠ 15) (b : Byte) (c : Bool) :
    (advance (writeResultThenFlag x b c s)).V[x] = b := by
  rw [get_advance_flag, if_neg hx, if_pos rfl]

theorem get_advance_flag_VF (b : Byte) (c : Bool) :
    (advance (writeResultThenFlag x b c s)).V[(15 : Reg)] = flagByte c := by
  rw [get_advance_flag, if_pos rfl]

theorem flagByte_toNat (c : Bool) : (flagByte c).toNat = c.toNat := by
  cases c <;> rfl

/-- Byte subtraction is the integer difference modulo 256 (R173). -/
theorem sub_toNat_int (a b : Byte) : ((a - b).toNat : Int) = ((a.toNat : Int) - b.toNat) % 256 := by
  have := a.isLt; have := b.isLt
  rw [BitVec.toNat_sub]; omega

theorem shiftRight_one_toNat (v : Byte) : (v >>> 1).toNat = v.toNat / 2 := by
  rw [BitVec.toNat_ushiftRight, Nat.shiftRight_eq_div_pow]

theorem shiftLeft_one_toNat (v : Byte) : (v <<< 1).toNat = v.toNat * 2 % 256 := by
  rw [BitVec.toNat_shiftLeft, Nat.shiftLeft_eq]

/-- The bit shifted out to the right is the lowest bit (R168). -/
theorem shiftedOutRight_toNat (v : Byte) : (flagByte (shiftedOutRight v)).toNat = v.toNat % 2 := by
  rw [flagByte_toNat, shiftedOutRight, BitVec.getLsbD, Nat.toNat_testBit, Nat.pow_zero, Nat.div_one]

/-- The bit shifted out to the left is the highest bit (R170). -/
theorem shiftedOutLeft_toNat (v : Byte) : (flagByte (shiftedOutLeft v)).toNat = v.toNat / 128 := by
  have := v.isLt
  rw [flagByte_toNat, shiftedOutLeft, BitVec.getLsbD, Nat.toNat_testBit]; omega

/-! ## The statements -/

/-- Settles O30, from the one outcome of 7xNN with its frame. -/
theorem addImmediateWrapsWithoutAFlag : Obligations.AddImmediateWrapsWithoutAFlag := by
  refine ⟨decodes_addImm, fun s x nn => ⟨_, exec_addImm s x nn, ?_, rfl, frame_advance_setV s x _⟩⟩
  rw [get_advance_setV_same, BitVec.toNat_add]

/-- Settles O31: each of the four writes its register with the byte operation, read bit by bit. -/
theorem copyAndLogicWriteOnlyTheirRegister : Obligations.CopyAndLogicWriteOnlyTheirRegister := by
  refine ⟨decodes_ldReg, decodes_or, decodes_and, decodes_xor, fun s x y => ⟨?_, ?_, ?_, ?_⟩⟩
  · exact ⟨_, exec_ldReg s x y, get_advance_setV_same s x _, rfl, frame_advance_setV s x _⟩
  · refine ⟨_, exec_or s x y, fun k => ?_, rfl, frame_advance_setV s x _⟩
    rw [get_advance_setV_same, BitVec.getLsbD_or]
  · refine ⟨_, exec_and s x y, fun k => ?_, rfl, frame_advance_setV s x _⟩
    rw [get_advance_setV_same, BitVec.getLsbD_and]
  · refine ⟨_, exec_xor s x y, fun k => ?_, rfl, frame_advance_setV s x _⟩
    rw [get_advance_setV_same, BitVec.getLsbD_xor]

/-- Settles O32: the sum, then the carry over it. -/
theorem addRegistersWritesTheSumThenTheCarry : Obligations.AddRegistersWritesTheSumThenTheCarry := by
  refine ⟨decodes_addReg, fun s x y => ⟨_, exec_addReg s x y, fun hx => ?_, ?_, rfl, frame_advance_flag s x _ _⟩⟩
  · rw [get_advance_flag_result s hx, BitVec.toNat_add]
  · rw [get_advance_flag_VF, carry, flagByte_decide_toNat]

/-- Settles O33: the difference, then its not-borrow over it. -/
theorem subtractRegistersWritesTheDifferenceThenNotBorrow :
    Obligations.SubtractRegistersWritesTheDifferenceThenNotBorrow := by
  refine ⟨decodes_sub, fun s x y => ⟨_, exec_sub s x y, fun hx => ?_, ?_, rfl, frame_advance_flag s x _ _⟩⟩
  · rw [get_advance_flag_result s hx, sub_toNat_int]
  · rw [get_advance_flag_VF, notBorrow, flagByte_decide_toNat]

/-- Settles O34: the reverse difference, then its not-borrow over it. -/
theorem reverseSubtractWritesTheDifferenceThenNotBorrow :
    Obligations.ReverseSubtractWritesTheDifferenceThenNotBorrow := by
  refine ⟨decodes_subn, fun s x y => ⟨_, exec_subn s x y, fun hx => ?_, ?_, rfl, frame_advance_flag s x _ _⟩⟩
  · rw [get_advance_flag_result s hx, sub_toNat_int]
  · rw [get_advance_flag_VF, notBorrow, flagByte_decide_toNat]

/-- Settles O35: `V[Y]` moved one place, then the bit that left it. -/
theorem shiftsMoveVYOnePlaceThenTheBitShiftedOut : Obligations.ShiftsMoveVYOnePlaceThenTheBitShiftedOut := by
  refine ⟨decodes_shr, decodes_shl, fun s x y => ⟨?_, ?_⟩⟩
  · refine ⟨_, exec_shr s x y, fun hx => ?_, ?_, rfl, frame_advance_flag s x _ _⟩
    · rw [get_advance_flag_result s hx, shiftRight_one_toNat]
    · rw [get_advance_flag_VF, shiftedOutRight_toNat]
  · refine ⟨_, exec_shl s x y, fun hx => ?_, ?_, rfl, frame_advance_flag s x _ _⟩
    · rw [get_advance_flag_result s hx, shiftLeft_one_toNat]
    · rw [get_advance_flag_VF, shiftedOutLeft_toNat]

/-- Settles O36: the draw at the counter, masked, and the counter one further. -/
theorem randomByteIsMaskedAndOneDrawConsumed : Obligations.RandomByteIsMaskedAndOneDrawConsumed := by
  refine ⟨decodes_rnd, fun s x nn =>
    ⟨_, _, exec_rnd s x nn, rfl, fun k => ?_, rfl, rfl, frame_advance_setV_consumeDraw s x _⟩⟩
  rw [advance_V, consumeDraw_V, setV_get, if_pos rfl, BitVec.getLsbD_and]

end Sys2Proof.Machine
end

section
/-! Control transfer (41_control_flow.md): 1NNN, 2NNN, 00EE, the skips on registers, BNNN. -/

namespace Sys2Proof.Machine

variable (s : State)

/-! ## The one outcome of each instruction that does not touch the stack -/

theorem exec_jp (nnn : Word) : exec (.jp nnn) s = .next (s.setPc nnn) := rfl

theorem exec_jpV0 (nnn : Word) : exec (.jpV0 nnn) s = .next (s.setPc (indexedTarget nnn s)) := rfl

theorem exec_seImm (x : Reg) (nn : Byte) : exec (.seImm x nn) s = .next (skipIf (decide (s.V[x] = nn)) s) := rfl

theorem exec_sneImm (x : Reg) (nn : Byte) : exec (.sneImm x nn) s = .next (skipIf (!decide (s.V[x] = nn)) s) := rfl

theorem exec_seReg (x y : Reg) : exec (.seReg x y) s = .next (skipIf (decide (s.V[x] = s.V[y])) s) := rfl

theorem exec_sneReg (x y : Reg) : exec (.sneReg x y) s = .next (skipIf (!decide (s.V[x] = s.V[y])) s) := rfl

/-! ## Skips -/

theorem pc_skipIf_decide (P : Prop) [Decidable P] :
    (skipIf (decide P) s).pc = if P then s.pc + 4#16 else s.pc + 2#16 := by
  rw [skipIf_pc, npc_add_two]
  by_cases h : P <;> simp [h, npc]

theorem pc_skipIf_not_decide (P : Prop) [Decidable P] :
    (skipIf (!decide P) s).pc = if P then s.pc + 2#16 else s.pc + 4#16 := by
  rw [← decide_not, pc_skipIf_decide, ite_not]

/-- Settles O41, from the skip of each instruction and the frame of a skip. -/
theorem skipsComparingRegistersMoveThePcOnly : Obligations.SkipsComparingRegistersMoveThePcOnly :=
  ⟨decodes_seImm, decodes_sneImm, decodes_seReg, decodes_sneReg, fun s x y nn =>
    ⟨⟨_, exec_seImm s x nn, pc_skipIf_decide s _, frame_skipIf s _⟩,
      ⟨_, exec_sneImm s x nn, pc_skipIf_not_decide s _, frame_skipIf s _⟩,
      ⟨_, exec_seReg s x y, pc_skipIf_decide s _, frame_skipIf s _⟩,
      ⟨_, exec_sneReg s x y, pc_skipIf_not_decide s _, frame_skipIf s _⟩⟩⟩

/-! ## Jumps -/

/-- Settles O37: the jump writes `pc`, and writing `pc` over itself is no change. -/
theorem jumpSetsThePcAndNothingElse : Obligations.JumpSetsThePcAndNothingElse :=
  ⟨decodes_jp, fun s nnn => ⟨⟨_, exec_jp s nnn, rfl, frame_setPc s nnn⟩, exec_jp s s.pc⟩⟩

theorem indexedTarget_toNat (nnn : Word) :
    (indexedTarget nnn s).toNat = (nnn.toNat + s.V[(0 : Reg)].toNat) % 65536 := by
  rw [indexedTarget, BitVec.toNat_ofNat]; rfl

/-- Settles O42: the target is the sum in 16 bits, which an encoded `NNN` cannot overflow. -/
theorem indexedJumpAddsV0 : Obligations.IndexedJumpAddsV0 := by
  refine ⟨decodes_jpV0, fun s nnn =>
    ⟨_, exec_jpV0 s nnn, indexedTarget_toNat s nnn, fun hn => ?_, frame_setPc s _⟩⟩
  have hv := (s.V[(0 : Reg)]).isLt
  rw [setPc_pc, indexedTarget_toNat]
  exact Nat.mod_eq_of_lt (by omega)

/-! ## The call stack -/

/-- Settles O38, from the call with room: entry `k` is the one above the `k` held. -/
theorem callPushesTheAddressAfterIt : Obligations.CallPushesTheAddressAfterIt := by
  refine ⟨decodes_call, fun s nnn k hk => ?_⟩
  have hsp : s.sp.val < 16 := hk ▸ k.isLt
  obtain rfl : k = ⟨s.sp.val, hsp⟩ := Fin.ext hk.symm
  exact ⟨_, exec_call_room s nnn hsp, Vector.getElem_set_self hsp, rfl, rfl, frame_pushed s ⟨s.sp.val, hsp⟩ _ _ _⟩

/-- A return with `k + 1` entries held takes entry `k`. -/
theorem exec_ret_entry (k : Fin 16) (hk : s.sp.val = k.val + 1) : exec .ret s
    = .next ((s.setStack s.stack ⟨k.val, Nat.lt_succ_of_lt k.isLt⟩).setPc s.stack[k]) := by
  have hpred : s.sp.val - 1 = k.val := by omega
  rw [exec_ret_held s (by omega)]
  simp only [hpred]; rfl

/-- Settles O39, from the two outcomes of a return; the invariant bounds every entry held. -/
theorem returnPopsTheNewestAddress : Obligations.ReturnPopsTheNewestAddress := by
  refine ⟨decodes_ret, fun s k hk => ?_, fun s h => ?_⟩
  · exact ⟨_, exec_ret_entry s k hk, rfl, rfl, frame_popped s _ _, fun hinv => hinv.returnBound k (by omega)⟩
  · exact ⟨_, _, exec_ret_empty s h, rfl, rfl, raise_frame s _⟩

/-- Settles O40: the call leaves its return address in the entry that the return takes. -/
theorem callThenReturnComesBackAfterTheCall : Obligations.CallThenReturnComesBackAfterTheCall := by
  intro s t u nnn hsp ht husp hustack
  obtain ⟨t', ht', hentry, hdepth, -, -⟩ := callPushesTheAddressAfterIt.2 s nnn ⟨s.sp.val, hsp⟩ rfl
  cases ht'.symm.trans ht
  have hk : u.sp.val = s.sp.val + 1 := husp ▸ hdepth
  refine ⟨_, exec_ret_entry u ⟨s.sp.val, hsp⟩ hk, ?_, rfl⟩
  rw [setPc_pc, hustack ⟨s.sp.val, hsp⟩ (by rw [hdepth]; exact Nat.lt_succ_self _), hentry]

end Sys2Proof.Machine
end

section
/-! The index register and the memory transfers (43_index_memory.md): Fx1E, Fx33, Fx55, Fx65, and the fetch of what they
store (20_memory.md section 7). -/

namespace Sys2Proof.Machine

variable (s : State)

/-! ## Fx1E -/

theorem exec_addI (x : Reg) : exec (.addI x) s = .next (advance (s.setI (s.I + s.V[x].setWidth 16))) := rfl

/-- Settles O44: the byte is zero-extended and added in 16 bits. -/
theorem addToIndexWrapsAtSixteenBits : Obligations.AddToIndexWrapsAtSixteenBits := by
  refine ⟨decodes_addI, fun s x => ⟨_, exec_addI s x, ?_, rfl, frame_advance_setI s _⟩⟩
  have hv := s.V[x].isLt
  rw [advance_I, setI_I, BitVec.toNat_add, BitVec.toNat_setWidth]; omega

/-! ## Bytes stored and bytes fetched -/

/-- The `k`-th byte of a stored block. -/
theorem read_stored {bs : List Byte} {k : Nat} (hk : k < bs.length) (d : Byte) :
    Memory.read (advance (s.setMem (Memory.writeBytes s.mem s.I.toNat bs))).mem (s.I.toNat + k) = bs.getD k d := by
  rw [advance_mem, setMem_mem, Memory.read_writeBytes, if_pos (by omega), Nat.add_sub_cancel_left,
    List.getD_eq_getElem _ _ hk, List.getD_eq_getElem _ _ hk]

/-- A fetch in bounds gives the word of the two bytes at `pc`. -/
theorem fetch_toNat {a : Nat} (hpc : s.pc.toNat = a) (ha : a ≤ 4094) : ∃ w, fetch s = some w ∧
    w.toNat = (Memory.read s.mem a).toNat * 256 + (Memory.read s.mem (a + 1)).toNat := by
  subst hpc
  exact ⟨_, fetch_inBounds s ha, wordOfBytes_toNat _ _⟩

theorem bcdDigits_toNat (v : Byte) : ((bcdDigits v).getD 0 0).toNat = v.toNat / 100 ∧
    ((bcdDigits v).getD 1 0).toNat = v.toNat / 10 % 10 ∧ ((bcdDigits v).getD 2 0).toNat = v.toNat % 10 := by
  have hv := v.isLt
  refine ⟨?_, ?_, ?_⟩
  · show (BitVec.ofNat 8 (v.toNat / 100)).toNat = _
    rw [BitVec.toNat_ofNat]; omega
  · show (BitVec.ofNat 8 (v.toNat / 10 % 10)).toNat = _
    rw [BitVec.toNat_ofNat]; omega
  · show (BitVec.ofNat 8 (v.toNat % 10)).toNat = _
    rw [BitVec.toNat_ofNat]; omega

/-! ## The statements -/

/-- Settles O45: the digits are the bytes of the stored block, which a fetch reads back; out of bounds the store faults
whole. -/
theorem decimalDigitsAreStoredAtI : Obligations.DecimalDigitsAreStoredAtI := by
  refine ⟨decodes_ldBcd, fun s x hI => ?_, fun s x hI => ?_⟩
  · obtain ⟨hd0, hd1, hd2⟩ := bcdDigits_toNat s.V[x]
    have hlen : (bcdDigits s.V[x]).length = 3 := rfl
    have h0 := congrArg BitVec.toNat (read_stored s (bs := bcdDigits s.V[x]) (k := 0) (by omega) 0)
    have h1 := congrArg BitVec.toNat (read_stored s (bs := bcdDigits s.V[x]) (k := 1) (by omega) 0)
    have h2 := congrArg BitVec.toNat (read_stored s (bs := bcdDigits s.V[x]) (k := 2) (by omega) 0)
    rw [hd0] at h0; rw [hd1] at h1; rw [hd2] at h2
    refine ⟨_, exec_ldBcd_inBounds s x (by omega), h0, h1, h2, rfl, frame_advance_setMem s _ 3 hlen, ?_, ?_⟩
    · intro u hmem hpc
      obtain ⟨w, hf, hw⟩ := fetch_toNat u (congrArg BitVec.toNat hpc) (by omega)
      rw [hmem] at hw
      exact ⟨w, hf, hw.trans (congrArg₂ (· * 256 + ·) h0 h1)⟩
    · intro u hmem hpc
      have hpc1 : u.pc.toNat = s.I.toNat + 1 := by
        rw [hpc, BitVec.toNat_add, BitVec.toNat_ofNat]; omega
      obtain ⟨w, hf, hw⟩ := fetch_toNat u hpc1 (by omega)
      rw [hmem] at hw
      exact ⟨w, hf, hw.trans (congrArg₂ (· * 256 + ·) h1 h2)⟩
  · exact ⟨_, _, exec_ldBcd_outOfBounds s x (by omega), rfl, rfl, BitVec.toNat_ofNat _ _, raise_frame s _⟩

/-- Settles O46: byte `k` of the stored block is `V[k]`. -/
theorem storeRegistersCopiesThemToMemory : Obligations.StoreRegistersCopiesThemToMemory := by
  refine ⟨decodes_storeRegs, fun s x hI => ⟨_, exec_storeRegs_inBounds s x hI, fun k hk => ?_, rfl,
    frame_advance_setMem s _ _ (length_regBlock s x)⟩⟩
  have hlt : k.val < (regBlock s x).length := by rw [length_regBlock]; exact Nat.lt_succ_of_le hk
  rw [read_stored s hlt 0, getD_regBlock s x k hk]

/-- Settles O47: `V[k]` is byte `k` of the block read; out of bounds the load faults whole. -/
theorem loadRegistersCopiesThemFromMemory : Obligations.LoadRegistersCopiesThemFromMemory := by
  refine ⟨decodes_loadRegs, fun s x hI => ⟨_, exec_loadRegs_inBounds s x hI, fun k hk => ?_, ?_,
    frame_advance_setRegs s x _ (Memory.length_readBytes ..)⟩, fun s x hI => ?_⟩
  · rw [advance_V, setRegs_get, Memory.getD_readBytes, if_pos (Nat.lt_succ_of_le hk)]
  · rw [advance_pc, npc, setRegs_pc]
  · exact ⟨_, _, exec_loadRegs_outOfBounds s x hI, rfl, rfl, BitVec.toNat_ofNat _ _, raise_frame s _⟩

/-- Settles O48, from what the store leaves in memory and what the load takes from there; the store leaves `I`. -/
theorem storeThenLoadRestoresTheRegisters : Obligations.StoreThenLoadRestoresTheRegisters := by
  intro s t u x hI ht huI humem
  obtain ⟨t', ht', hstored, -, hframe⟩ := storeRegistersCopiesThemToMemory.2 s x hI
  cases ht'.symm.trans ht
  have htI : t.I = s.I := hframe .I (by simp [cells])
  have huI' : u.I = s.I := huI.trans htI
  obtain ⟨v, hv, hloaded, -⟩ := loadRegistersCopiesThemFromMemory.2.1 u x (huI' ▸ hI)
  refine ⟨v, hv, fun k hk => ?_⟩
  rw [hloaded k hk, humem, huI', hstored k hk]

/-- Settles O49, from the fetch of two neighbouring bytes and what the store left there. -/
theorem fetchSeesTheBytesJustStored : Obligations.FetchSeesTheBytesJustStored := by
  intro s t u x j k hI ht hjk hkx humem hupc
  obtain ⟨t', ht', hstored, -⟩ := storeRegistersCopiesThemToMemory.2 s x hI
  cases ht'.symm.trans ht
  have hkx' : k.val ≤ x.val := hkx
  obtain ⟨w, hf, hw⟩ := fetch_toNat u hupc (by omega)
  have hj := hstored j (show j.val ≤ x.val by omega)
  have hk := hstored k hkx
  rw [hjk, ← Nat.add_assoc] at hk
  exact ⟨w, hf, by rw [hw, humem, hj, hk]⟩

end Sys2Proof.Machine
end

section
/-! The display (44_draw.md): 00E0, DXYN. -/

namespace Sys2Proof.Machine

variable (s : State)

theorem exec_cls : exec .cls s = .next (advance (s.setFb clearFb)) := rfl

/-- Settles O50: the screen becomes the clear one. -/
theorem clearScreenClearsEveryPixel : Obligations.ClearScreenClearsEveryPixel :=
  ⟨decodes_cls, fun s => ⟨_, exec_cls s, fbRead_clearFb, rfl, frame_advance_setFb s _⟩⟩

/-- The collision flag once `VF` is written. -/
theorem get_drawn_VF (f : Framebuffer) (c : Bool) :
    (advance ((s.setFb f).setV flagReg (flagByte c))).V[(15 : Reg)] = flagByte c :=
  get_advance_setV_same (s.setFb f) flagReg _

/-- Settles O51, from each pixel and the collision of a sprite drawn in bounds. -/
theorem drawXorsTheSpriteAndReportsAnyCollision : Obligations.DrawXorsTheSpriteAndReportsAnyCollision := by
  refine ⟨decodes_drw, fun s x y n hI => ⟨_, exec_drw_inBounds s x y n hI, fbRead_drawn s x y n, fun hhit => ?_,
    fun hmiss => ?_, rfl, frame_advance_setFb_setV s _ _ _⟩⟩
  · have hc : (drawn s x y n).collision = true := (collision_drawn s x y n).mpr hhit
    rw [get_drawn_VF, hc]; rfl
  · have hc : (drawn s x y n).collision = false := by
      by_contra hcol
      obtain ⟨px, py, hx, hy, hset, hbit⟩ := (collision_drawn s x y n).mp (by simpa using hcol)
      rw [hmiss px py hx hy hset] at hbit
      cases hbit
    rw [get_drawn_VF, hc]; rfl

/-- A sprite is read from `I`, memory and the two origin registers alone. -/
theorem spriteBit_congr {s u : State} {x y : Reg} (hI : u.I = s.I)
    (hmem : ∀ a, Memory.read u.mem a = Memory.read s.mem a) (hx : u.V[x] = s.V[x]) (hy : u.V[y] = s.V[y])
    (n px py : Nat) : spriteBit u x y n px py = spriteBit s x y n px py := by
  rw [spriteBit, spriteBit, hI, hmem, hx, hy]

/-- Two framebuffers that differ do so in a pixel of the screen. -/
theorem exists_pixel_ne {f g : Framebuffer} (h : f ≠ g) :
    ∃ px py : Nat, px < 64 ∧ py < 32 ∧ fbRead f px py ≠ fbRead g px py := by
  by_contra hall
  refine h (fb_ext f g fun px py => ?_)
  by_cases hon : px < 64 ∧ py < 32
  · by_contra hne
    exact hall ⟨px, py, hon.1, hon.2, hne⟩
  · rw [fbRead_offScreen f px py hon, fbRead_offScreen g px py hon]

/-- Settles O52: the second sprite is the first one, so each pixel is XORed twice with the same bit; a pixel that the
first draw changed without a collision it set, under a sprite bit that the second draw meets again. -/
theorem drawingTwiceRestoresTheScreen : Obligations.DrawingTwiceRestoresTheScreen := by
  intro s t u x y n hx hy hI ht huI humem hufb hux huy
  obtain ⟨t', ht', hpixel, hhit, -, -, hframe⟩ := drawXorsTheSpriteAndReportsAnyCollision.2 s x y n hI
  cases ht'.symm.trans ht
  have htI : t.I = s.I := hframe .I (by simp)
  have hmem : ∀ a, Memory.read u.mem a = Memory.read s.mem a := fun a =>
    humem ▸ hframe (.mem a) (by simp)
  have hbit : ∀ px py, spriteBit u x y n px py = spriteBit s x y n px py :=
    spriteBit_congr (huI.trans htI) hmem (hux.trans (hframe (.V x) (by simpa using hx)))
      (huy.trans (hframe (.V y) (by simpa using hy))) n
  obtain ⟨v, hv, hpixel', hhit', -, -, -⟩ :=
    drawXorsTheSpriteAndReportsAnyCollision.2 u x y n (by rw [huI, htI]; exact hI)
  refine ⟨v, hv, ?_, fun hclear hne => ?_⟩
  · by_contra hne
    obtain ⟨px, py, hpx, hpy, hdiff⟩ := exists_pixel_ne hne
    rw [hpixel' px py hpx hpy, hufb, hpixel px py hpx hpy, hbit] at hdiff
    exact hdiff (by simp)
  · obtain ⟨px, py, hpx, hpy, hdiff⟩ := exists_pixel_ne hne
    have hsprite : spriteBit s x y n px py = true := by
      by_contra hzero
      rw [hpixel px py hpx hpy, eq_false_of_ne_true hzero, Bool.bne_false] at hdiff
      exact hdiff rfl
    have hfree : fbRead s.fb px py = false := by
      by_contra hset
      have hVF := hhit ⟨px, py, hpx, hpy, by simpa using hset, hsprite⟩
      cases hclear.symm.trans hVF
    refine hhit' ⟨px, py, hpx, hpy, ?_, (hbit px py).trans hsprite⟩
    rw [hufb, hpixel px py hpx hpy, hfree, hsprite]; rfl

end Sys2Proof.Machine
end

section
/-! The keypad (45_timer_keypad.md sections 2 and 3): Ex9E, ExA1, Fx0A. -/

namespace Sys2Proof.Machine

variable (s : State)

/-- Settles O56: the key named exists, and each instruction compares its level with its own. -/
theorem keySkipsTestTheCurrentLevel : Obligations.KeySkipsTestTheCurrentLevel := by
  refine ⟨decodes_skp, decodes_sknp, fun s x k hk => ?_⟩
  have hlt : s.V[x].toNat < 16 := hk ▸ k.isLt
  have hkey : s.keys[s.V[x].toNat] = s.keys[k] := by simp only [hk]; rfl
  refine ⟨⟨_, exec_skp_key s x hlt, ?_, frame_skipIf s _⟩, ⟨_, exec_sknp_key s x hlt, ?_, frame_skipIf s _⟩⟩
  all_goals
    rw [skipIf_pc, npc_add_two, hkey]
    cases s.keys[k] <;> rfl

/-- Settles O57, from the wait's outcome with no key found, and its frame. -/
theorem keyWaitHoldsWhileNoKeyIsPressed : Obligations.KeyWaitHoldsWhileNoKeyIsPressed :=
  ⟨decodes_ldVxKey, fun s x hnone =>
    ⟨_, exec_ldVxKey_wait s x ((firstPressed_none s.keys).mpr hnone), rfl, frame_setRunState s _⟩⟩

/-- Settles O58, from the wait's outcome with the lowest key found; its number fits a byte, and clearing it leaves every
other key. -/
theorem keyWaitTakesAndConsumesTheLowestKey : Obligations.KeyWaitTakesAndConsumesTheLowestKey := by
  intro s x k hk hlow
  refine ⟨_, exec_ldVxKey_take s x k (firstPressed_of_lowest hk hlow), ?_, ?_, fun j hj => ?_, rfl, rfl,
    frame_keyTaken s x _ _ _⟩
  · have hk16 := k.isLt
    show ((s.setV x (BitVec.ofNat 8 k.val)).V[x]).toNat = k.val
    rw [setV_get, if_pos rfl, BitVec.toNat_ofNat]; omega
  · exact Vector.getElem_set_self k.isLt
  · exact Vector.getElem_set_ne k.isLt j.isLt (fun e => hj (Fin.ext e.symm))

end Sys2Proof.Machine
end
